-- ==== Sys2Proof/Word.lean ====
section
/-! DEFINITION. The fixed-width values of the DMAC (spec rules R4 to R6): every register and bus value is an unsigned
bit vector of the width the spec gives it; a channel number is one of four. -/

namespace Sys2Proof

/-- A byte: the port data width, the transfer unit, and the width of `mode`, `page`, `command`, `status` (R4, R6, R131). -/
abbrev Byte := BitVec 8

/-- A 16-bit register: address and word-count registers, and the byte pointer (R4, R6). -/
abbrev Word := BitVec 16

/-- A four-bit register with one bit per channel: `REQ`, `MASK`, and the `DRQ` lines of a tick (R6, R24). -/
abbrev Nibble := BitVec 4

/-- A physical memory address, `PA_WIDTH` = 24 bits (R4, R43). -/
abbrev PhysAddr := BitVec 24

/-- A port offset, 5 bits (R60). -/
abbrev PortOffset := BitVec 5

/-- A 16-bit event word: the binary form of one operation (R62). -/
abbrev EventWord := BitVec 16

/-- A channel number, 0 to 3 (R1). -/
abbrev Chan := Fin 4

end Sys2Proof
end

