-- ==== Sys2Proof/Config.lean ====
section
/-! DEFINITION. What is fixed for one machine before it operates: the ports by name, the parameters of spec rule R4 that the
spec leaves OPEN, the card bindings (R25, R170), and the one free value of the model (the byte a card supplies).
The parameters are plain data held in State and changed by no step, so that a statement over every state is a statement
over every value of every parameter. -/

namespace Sys2Proof

/-- The four ports each channel has (R42, R61). -/
inductive ChanPort where
  | addr
  | wc
  | page
  | mode
deriving DecidableEq, Repr

/-- The 21 ports of the DMAC by name (R42, R61): four per channel and five global. -/
inductive Port where
  | chan (c : Chan) (k : ChanPort)
  | cmd
  | req
  | mask
  | status
  | clrff
deriving DecidableEq, Repr

/-- Every port once, in the order of the table of R61. -/
def Port.all : List Port :=
  [.chan 0 .addr, .chan 0 .wc, .chan 0 .page, .chan 0 .mode,
   .chan 1 .addr, .chan 1 .wc, .chan 1 .page, .chan 1 .mode] ++
  [.chan 2 .addr, .chan 2 .wc, .chan 2 .page, .chan 2 .mode,
   .chan 3 .addr, .chan 3 .wc, .chan 3 .page, .chan 3 .mode] ++
  [.cmd, .req, .mask, .status, .clrff]

/-- The parameter `PORT_MAP` (R4, R61): the offset of each of the 21 ports. The spec admits any one-to-one assignment;
`PortMap.oneToOne` (WellFormed.lean) is that condition. -/
structure PortMap where
  addr   : Vector PortOffset 4
  wc     : Vector PortOffset 4
  page   : Vector PortOffset 4
  mode   : Vector PortOffset 4
  cmd    : PortOffset
  req    : PortOffset
  mask   : PortOffset
  status : PortOffset
  clrff  : PortOffset
deriving DecidableEq, Repr

/-- The offset a port has under a port map. -/
def PortMap.offsetOf (pm : PortMap) : Port → PortOffset
  | .chan c .addr => pm.addr[c]
  | .chan c .wc   => pm.wc[c]
  | .chan c .page => pm.page[c]
  | .chan c .mode => pm.mode[c]
  | .cmd          => pm.cmd
  | .req          => pm.req
  | .mask         => pm.mask
  | .status       => pm.status
  | .clrff        => pm.clrff

/-- A card bound to a channel (R170). Its request line is an argument of each tick (R24, R172), its data path and its
completion signal are `Signal`s and the supply of State (R173, R174). `serviceAddress` is the card's own address for its
data byte: carried, used by no rule of the DMAC, of a width the spec does not give (hence a `Nat`). -/
structure Card where
  serviceAddress : Nat
deriving DecidableEq, Repr

/-- The OPEN parameters of R4. -/
structure Config where
  /-- `STRICT_PRECONDITIONS`: whether programming an armed channel and requesting a masked one fault (R84, R103). -/
  strict : Bool
  /-- `TC_FLAG_ON_AUTOINIT`: whether a terminal count with autoinitialize sets the terminal-count flag (R138). -/
  tcFlagOnAutoinit : Bool
  /-- `PORT_MAP` (R61). -/
  portMap : PortMap
  /-- `PORT_BASE`: where the 32 offsets sit in the platform's address map (R42); no rule of the DMAC reads it. -/
  portBase : Nat
  /-- The card bound to each channel, if any (R170). -/
  cards : Vector (Option Card) 4
deriving DecidableEq, Repr

/-- The platform address of a port: `PORT_BASE` plus its offset (R42). -/
def Config.platformAddress (cfg : Config) (p : Port) : Nat :=
  cfg.portBase + (cfg.portMap.offsetOf p).toNat

/-- FREE VALUE (log entry 2): the `n`-th byte drawn from cards whose listed supply has run out. The spec: "to the DMAC it
is a free input ... under no law of this spec" (R173). No body: nothing can be proved of it. -/
opaque Config.cardByte : Nat → Byte

end Sys2Proof
end

