-- ==== Sys2Proof/Syntax.lean ====
section
/-! DEFINITION. The operations of the DMAC (spec rules R8, R75): fifteen port accesses, the scheduler tick and reset, one
constructor per row of spec/opcode_table.json, in the table's order. -/

namespace Sys2Proof

/-- One operation. `c` is the channel whose port is accessed, `b` the byte written, `q` the levels of the four
device-request lines sampled by the tick. -/
inductive Instr where
  /-- `RD_ADDR C` (R80). -/
  | rdAddr (c : Chan)
  /-- `WR_ADDR C, b` (R81). -/
  | wrAddr (c : Chan) (b : Byte)
  /-- `RD_WC C` (R82). -/
  | rdWc (c : Chan)
  /-- `WR_WC C, b` (R83). -/
  | wrWc (c : Chan) (b : Byte)
  /-- `RD_PAGE C` (R85). -/
  | rdPage (c : Chan)
  /-- `WR_PAGE C, b` (R86). -/
  | wrPage (c : Chan) (b : Byte)
  /-- `WR_MODE C, b` (R87). -/
  | wrMode (c : Chan) (b : Byte)
  /-- `RD_CMD` (R100). -/
  | rdCmd
  /-- `WR_CMD b` (R101). -/
  | wrCmd (b : Byte)
  /-- `RD_REQ` (R102). -/
  | rdReq
  /-- `WR_REQ b` (R103). -/
  | wrReq (b : Byte)
  /-- `RD_MASK` (R104). -/
  | rdMask
  /-- `WR_MASK b` (R105). -/
  | wrMask (b : Byte)
  /-- `RD_STATUS` (R106). -/
  | rdStatus
  /-- `WR_CLRFF b` (R107). -/
  | wrClrff (b : Byte)
  /-- `TICK q` (R150). -/
  | tick (q : Nibble)
  /-- `RESET` (R210). -/
  | reset
deriving DecidableEq, Repr

end Sys2Proof
end

