-- ==== Sys2Proof/WellFormed.lean ====
section
/-! DEFINITION. What is well formed. A term of `Instr` is well formed by its types: a channel is a `Fin 4` and every datum
has the exact width its port takes (R60, R71), so no check is left on it. Three things can be ill formed and are checked
here: a port map that is not one-to-one (R61), a configuration that holds one (R4), and an event word that is not in
canonical form (R63). -/

namespace Sys2Proof

/-- R61: "any one-to-one assignment of the 21 ports to offsets". -/
def PortMap.oneToOne (pm : PortMap) : Bool :=
  decide ((Port.all.map pm.offsetOf).Nodup)

/-- R4: a configuration is well formed when its port map is one-to-one; its other parameters are unconstrained. -/
def Config.wellFormed (cfg : Config) : Bool :=
  cfg.portMap.oneToOne

/-- R63: in canonical form the data bits of a read are written as `0x00`; every other word is canonical as it is. -/
def EventWord.canonical (w : EventWord) : Bool :=
  decide (w.extractLsb' 13 3 = 0#3 → w.extractLsb' 0 8 = 0#8)

end Sys2Proof
end

