-- ==== Sys2Proof/Decode.lean ====
section
/-! DEFINITION. The port decoder and the event-word decoder (spec rules R60 to R65, R72), total on every 16-bit word and
rejecting by name, and after them the encoder, written from the same tables. -/

namespace Sys2Proof

/-- The default `PORT_MAP` of R61: channel `C`'s ports at `4*C + k`, the five global ports at `0x10` to `0x14`. -/
def PortMap.default : PortMap where
  addr   := #v[0x00#5, 0x04#5, 0x08#5, 0x0C#5]
  wc     := #v[0x01#5, 0x05#5, 0x09#5, 0x0D#5]
  page   := #v[0x02#5, 0x06#5, 0x0A#5, 0x0E#5]
  mode   := #v[0x03#5, 0x07#5, 0x0B#5, 0x0F#5]
  cmd    := 0x10#5
  req    := 0x11#5
  mask   := 0x12#5
  status := 0x13#5
  clrff  := 0x14#5

/-- Why a word encodes no operation the DMAC can be asked to do (R72). -/
inductive DecodeError where
  /-- A port access at an offset that is no port, or in a direction the port does not have: fault 5. -/
  | portContract (off : PortOffset) (write : Bool)
  /-- A word of reserved kind or with a must-be-zero bit set: fault 6. -/
  | badEvent (w : EventWord)
deriving DecidableEq, Repr

/-- What a word decodes to. -/
inductive Decoded where
  | instr (i : Instr)
  | reject (e : DecodeError)
deriving DecidableEq, Repr

/-- The port at an offset under a port map, if there is one (R61, R72). -/
def PortMap.portAt (pm : PortMap) (off : PortOffset) : Option Port :=
  Port.all.find? fun p => pm.offsetOf p == off

/-- The operation a read of a port is; none where the port has no read access (R61, R72). -/
def Port.readInstr : Port → Option Instr
  | .chan c .addr => some (.rdAddr c)
  | .chan c .wc   => some (.rdWc c)
  | .chan c .page => some (.rdPage c)
  | .chan _ .mode => none
  | .cmd          => some .rdCmd
  | .req          => some .rdReq
  | .mask         => some .rdMask
  | .status       => some .rdStatus
  | .clrff        => none

/-- The operation a write of byte `b` to a port is; none where the port has no write access (R61, R72). -/
def Port.writeInstr (b : Byte) : Port → Option Instr
  | .chan c .addr => some (.wrAddr c b)
  | .chan c .wc   => some (.wrWc c b)
  | .chan c .page => some (.wrPage c b)
  | .chan c .mode => some (.wrMode c b)
  | .cmd          => some (.wrCmd b)
  | .req          => some (.wrReq b)
  | .mask         => some (.wrMask b)
  | .status       => none
  | .clrff        => some (.wrClrff b)

/-- A port access: the port decoder of R60 and R61, with the illegal accesses of R72 rejected. -/
def decodeAccess (pm : PortMap) (off : PortOffset) (write : Bool) (data : Byte) : Decoded :=
  match pm.portAt off with
  | none => .reject (.portContract off write)
  | some p =>
    match (if write then p.writeInstr data else p.readInstr) with
    | some i => .instr i
    | none   => .reject (.portContract off write)

/-- Bits 15:14, `KIND` (R62). -/
def EventWord.kind (w : EventWord) : BitVec 2 := w.extractLsb' 14 2

/-- Bit 13, `W` (R63). -/
def EventWord.isWrite (w : EventWord) : Bool := w.getLsbD 13

/-- Bits 12:8, `OFF` (R63). -/
def EventWord.off (w : EventWord) : PortOffset := w.extractLsb' 8 5

/-- Bits 7:0, `DATA` (R63). -/
def EventWord.data (w : EventWord) : Byte := w.extractLsb' 0 8

/-- The event-word decoder of R62 to R65 and R72. -/
def decode (pm : PortMap) (w : EventWord) : Decoded :=
  if w.kind = 0b00#2 then
    decodeAccess pm w.off w.isWrite w.data
  else if w.kind = 0b01#2 then
    if w.extractLsb' 4 10 = 0#10 then .instr (.tick (w.extractLsb' 0 4)) else .reject (.badEvent w)
  else if w.kind = 0b10#2 then
    if w.extractLsb' 0 14 = 0#14 then .instr .reset else .reject (.badEvent w)
  else
    .reject (.badEvent w)

/-- The port-access event word of R63. -/
def accessWord (write : Bool) (off : PortOffset) (data : Byte) : EventWord :=
  (0b00#2 ++ BitVec.ofBool write ++ off ++ data : BitVec (2 + 1 + 5 + 8))

/-- The tick event word of R64. -/
def tickWord (q : Nibble) : EventWord :=
  (0b01#2 ++ 0#10 ++ q : BitVec (2 + 10 + 4))

/-- The reset event word of R65. -/
def resetWord : EventWord := 0x8000#16

/-- The event word of an operation, in canonical form (R63 to R65, R75). -/
def encode (pm : PortMap) : Instr → EventWord
  | .rdAddr c   => accessWord false (pm.offsetOf (.chan c .addr)) 0x00#8
  | .wrAddr c b => accessWord true (pm.offsetOf (.chan c .addr)) b
  | .rdWc c     => accessWord false (pm.offsetOf (.chan c .wc)) 0x00#8
  | .wrWc c b   => accessWord true (pm.offsetOf (.chan c .wc)) b
  | .rdPage c   => accessWord false (pm.offsetOf (.chan c .page)) 0x00#8
  | .wrPage c b => accessWord true (pm.offsetOf (.chan c .page)) b
  | .wrMode c b => accessWord true (pm.offsetOf (.chan c .mode)) b
  | .rdCmd      => accessWord false (pm.offsetOf .cmd) 0x00#8
  | .wrCmd b    => accessWord true (pm.offsetOf .cmd) b
  | .rdReq      => accessWord false (pm.offsetOf .req) 0x00#8
  | .wrReq b    => accessWord true (pm.offsetOf .req) b
  | .rdMask     => accessWord false (pm.offsetOf .mask) 0x00#8
  | .wrMask b   => accessWord true (pm.offsetOf .mask) b
  | .rdStatus   => accessWord false (pm.offsetOf .status) 0x00#8
  | .wrClrff b  => accessWord true (pm.offsetOf .clrff) b
  | .tick q     => tickWord q
  | .reset      => resetWord

/-- The mnemonic of an operation, as spec/opcode_table.json and R75 spell it. -/
def Instr.mnemonic : Instr → String
  | .rdAddr _   => "RD_ADDR"
  | .wrAddr _ _ => "WR_ADDR"
  | .rdWc _     => "RD_WC"
  | .wrWc _ _   => "WR_WC"
  | .rdPage _   => "RD_PAGE"
  | .wrPage _ _ => "WR_PAGE"
  | .wrMode _ _ => "WR_MODE"
  | .rdCmd      => "RD_CMD"
  | .wrCmd _    => "WR_CMD"
  | .rdReq      => "RD_REQ"
  | .wrReq _    => "WR_REQ"
  | .rdMask     => "RD_MASK"
  | .wrMask _   => "WR_MASK"
  | .rdStatus   => "RD_STATUS"
  | .wrClrff _  => "WR_CLRFF"
  | .tick _     => "TICK"
  | .reset      => "RESET"

/-- One row of spec/opcode_table.json: a word is of the row when its masked bits are the match. -/
structure OpcodeRow where
  mnemonic : String
  pattern  : EventWord
  mask     : EventWord
deriving DecidableEq, Repr

/-- spec/opcode_table.json, row by row (for the default port map). -/
def opcodeTable : List OpcodeRow :=
  [⟨"RD_ADDR", 0x0000#16, 0xF300#16⟩, ⟨"WR_ADDR", 0x2000#16, 0xF300#16⟩, ⟨"RD_WC", 0x0100#16, 0xF300#16⟩,
   ⟨"WR_WC", 0x2100#16, 0xF300#16⟩, ⟨"RD_PAGE", 0x0200#16, 0xF300#16⟩, ⟨"WR_PAGE", 0x2200#16, 0xF300#16⟩,
   ⟨"WR_MODE", 0x2300#16, 0xF300#16⟩] ++
  [⟨"RD_CMD", 0x1000#16, 0xFF00#16⟩, ⟨"WR_CMD", 0x3000#16, 0xFF00#16⟩, ⟨"RD_REQ", 0x1100#16, 0xFF00#16⟩,
   ⟨"WR_REQ", 0x3100#16, 0xFF00#16⟩, ⟨"RD_MASK", 0x1200#16, 0xFF00#16⟩, ⟨"WR_MASK", 0x3200#16, 0xFF00#16⟩,
   ⟨"RD_STATUS", 0x1300#16, 0xFF00#16⟩, ⟨"WR_CLRFF", 0x3400#16, 0xFF00#16⟩] ++
  [⟨"TICK", 0x4000#16, 0xFFF0#16⟩, ⟨"RESET", 0x8000#16, 0xFFFF#16⟩]

/-- The word of R63 with the data bits of a read written as `0x00`; any other word as it is. -/
def EventWord.canonicalForm (w : EventWord) : EventWord :=
  if w.extractLsb' 13 3 = 0#3 then w &&& 0xFF00#16 else w

/-- The instruction the decoder reads from a table row's word, under the default port map. An event word is one 16-bit
unit, so there is no byte order; a number that does not fit 16 bits is no event word. -/
def decodeTableWord (nbits w : Nat) : Option Instr :=
  if nbits ≤ 16 ∧ w < 2 ^ 16 then
    match decode PortMap.default (BitVec.ofNat 16 w) with
    | .instr i  => some i
    | .reject _ => none
  else
    none

end Sys2Proof
end

