-- ==== Sys2Proof/Machine/State.lean ====
section
/-! DEFINITION. The state of the machine: the DMAC's own registers (10_state.md, R10 to R26, R36), the environment its rules
speak of (memory, configuration, card supplies, inputs to come) and the trace of what it has put out; the faults of
60_exceptions.md R180; and the state after reset (R33). -/

namespace Sys2Proof.Machine

open Sys2Proof

/-- The seven registers of one channel (R10 to R15). -/
structure Channel where
  /-- `MODE[C]` (R11), laid out by R66. -/
  mode  : Byte
  /-- `PAGE[C]` (R12). -/
  page  : Byte
  /-- `ABASE[C]` (R13). -/
  abase : Word
  /-- `ACUR[C]` (R13). -/
  acur  : Word
  /-- `WBASE[C]` (R14). -/
  wbase : Word
  /-- `WCUR[C]` (R14). -/
  wcur  : Word
  /-- `BPTR[C]` (R15, decision D12). -/
  bptr  : Word
deriving DecidableEq, Repr

/-- Every register of the DMAC (R36): "The DMAC holds no other state" (R26). -/
structure Dmac where
  /-- The channel register file (R10). -/
  chans  : Vector Channel 4
  /-- `CMD` (R17), laid out by R67. -/
  cmd    : Byte
  /-- `REQ` (R18): bit `C` is channel `C`'s software request. -/
  req    : Nibble
  /-- `MASK` (R19): bit `C` set means channel `C` is masked. -/
  mask   : Nibble
  /-- `STATUS` (R20): `TC[C]` at bit `C`, `RQ[C]` at bit `4 + C` (R70). -/
  status : Byte
  /-- `BFF` (R21): `false` is low-byte-next. -/
  bff    : Bool
  /-- `LAST` (R23): the channel most recently given a Transfer Engine step. -/
  last   : Chan
deriving DecidableEq, Repr

/-- One thing the DMAC has put out or done to its surroundings (R7, R190), or what a CPU load has returned (R52 item 3).
Signals of a card carry `BPTR[C]` as the card sees it at that moment (R175). -/
inductive Signal where
  /-- A port read returned this byte to the bus master (R7, `return v`). -/
  | portRead (v : Byte)
  /-- `MemRead` at an address returned a byte (R46). -/
  | memRead (a : PhysAddr) (v : Byte)
  /-- `MemWrite` at an address of a byte (R46). -/
  | memWrite (a : PhysAddr) (v : Byte)
  /-- `DevGet(C)` took a byte from the card (R173). -/
  | devGet (c : Chan) (bptr : Word) (v : Byte)
  /-- `DevPut(C, v)` gave a byte to the card (R173). -/
  | devPut (c : Chan) (bptr : Word) (v : Byte)
  /-- `Complete(C)` (R174). -/
  | complete (c : Chan) (bptr : Word)
  /-- A CPU load of main memory returned a byte (R52 item 3). -/
  | cpuLoad (a : PhysAddr) (v : Byte)
deriving DecidableEq, Repr

/-- One input of the machine, an element of the total order of R52. -/
inductive Input where
  /-- An operation of the DMAC, as an event word (R62). -/
  | op (w : EventWord)
  /-- A CPU store of one byte to main memory (R52 item 3). -/
  | cpuStore (a : PhysAddr) (v : Byte)
  /-- A CPU load of one byte of main memory (R52 item 3). -/
  | cpuLoad (a : PhysAddr)
deriving DecidableEq, Repr

/-- System main memory (R45) as its listed bytes, in the canonical form `Memory.wf` (Ops.lean). -/
abbrev Memory := List Host.Cell

/-- The whole machine. -/
structure State where
  /-- The DMAC's registers. -/
  dmac   : Dmac
  /-- System main memory (R45). -/
  mem    : Memory
  /-- The configuration (R4, R25): changed by no step. -/
  cfg    : Config
  /-- The inputs to come, oldest first (R52); the model's own field, log entry 1. -/
  inputs : List Input
  /-- The bytes each channel's card will supply, in order (R64, R173); the model's own field, log entry 2. -/
  supply : Vector (List Byte) 4
  /-- How many free card bytes have been drawn; the model's own field, log entry 2. -/
  draws  : Nat
  /-- What the DMAC has put out, oldest first; the model's own field, log entry 6. -/
  trace  : List Signal
deriving DecidableEq, Repr

/-- The faults of R180, each with the items recorded with it. All are safe: the model stops where the real device, which
checks none of these conditions, goes on in a way the spec does not give (R181). -/
inductive Fault where
  /-- Code 1 `PROGRAM_WHILE_ARMED`: raised by `WR_ADDR`, `WR_WC`, `WR_MODE` on an armed channel (R84). Safe. -/
  | programWhileArmed (c : Chan) (off : PortOffset) (b : Byte)
  /-- Code 2 `REQUEST_MASKED`: raised by `WR_REQ` turning a masked channel's request on (R103). Safe. -/
  | requestMasked (c : Chan) (b : Byte)
  /-- Code 3 `RESERVED_TYPE`: raised by `TICK` when the selected channel's transfer type is reserved (R132). Safe. -/
  | reservedType (c : Chan) (mode : Byte)
  /-- Code 4 `CASCADE`: raised by `TICK` when the selected channel is in cascade mode (R132). Safe. -/
  | cascade (c : Chan) (mode : Byte)
  /-- Code 5 `PORT_CONTRACT`: raised by a port access with no such port or direction (R72, R186). Safe. -/
  | portContract (off : PortOffset) (write : Bool)
  /-- Code 6 `BAD_EVENT`: raised by an event word that encodes no operation (R72). Safe. -/
  | badEvent (w : EventWord)
  /-- Code 7 `NO_CARD`: raised by `TICK` when the selected channel has no card (R132). Safe. -/
  | noCard (c : Chan)
deriving DecidableEq, Repr

/-- Why the model has no meaning for an instruction. Raised by no instruction of this model. -/
inductive Refusal where
  /-- The instruction of this mnemonic has no meaning yet: raised by `exec`'s arm alone. Safe. -/
  | notModelled (mnemonic : String)
deriving DecidableEq, Repr

/-- A channel after reset (R33, decision D13). -/
def Channel.reset : Channel where
  mode  := 0x00#8
  page  := 0x00#8
  abase := 0x0000#16
  acur  := 0x0000#16
  wbase := 0x0000#16
  wcur  := 0x0000#16
  bptr  := 0x0000#16

/-- The DMAC's registers after reset (R33, R210). -/
def Dmac.reset : Dmac where
  chans  := #v[Channel.reset, Channel.reset, Channel.reset, Channel.reset]
  cmd    := 0x00#8
  req    := 0b0000#4
  mask   := 0b1111#4
  status := 0x00#8
  bff    := false
  last   := 3

/-- The configuration of `State.reset`: the spec's defaults (R4, R61); `PORT_BASE` and the bindings are DESIGN CHOICE (log
entry 5). -/
def resetConfig : Config where
  strict           := true
  tcFlagOnAutoinit := false
  portMap          := PortMap.default
  portBase         := 0
  cards            := #v[some ⟨0⟩, some ⟨0⟩, some ⟨0⟩, some ⟨0⟩]

/-- The machine right after reset, with nothing listed in memory, no input to come and nothing put out yet. -/
def State.reset : State where
  dmac   := Dmac.reset
  mem    := []
  cfg    := resetConfig
  inputs := []
  supply := #v[[], [], [], []]
  draws  := 0
  trace  := []

end Sys2Proof.Machine
end

