-- ==== Sys2Proof/Machine/Operands.lean ====
section
/-! DEFINITION. Every operand form of the DMAC: the byte half chosen by `BFF` and the low nibble (30_encoding.md R71), the
zero-extended nibble of a port read (R68, R69), and the fields of `MODE` (R66) and `CMD` (R67). -/

namespace Sys2Proof.Machine

open Sys2Proof

/-- The half of a 16-bit register an address or word-count port read returns: bits 7:0 when `BFF = 0`, bits 15:8 when
`BFF = 1` (R71, R80, R82). -/
def selectByte (bff : Bool) (w : Word) : Byte :=
  if bff then w.extractLsb' 8 8 else w.extractLsb' 0 8

/-- A 16-bit register with one half replaced: bits 7:0 when `BFF = 0`, bits 15:8 when `BFF = 1` (R71, R81, R83). -/
def insertByte (bff : Bool) (w : Word) (b : Byte) : Word :=
  if bff then b ++ w.extractLsb' 0 8 else w.extractLsb' 8 8 ++ b

/-- `DATA[3:0]`: all a request or mask write uses of its byte (R68, R69, R71). -/
def lowNibble (b : Byte) : Nibble := b.extractLsb' 0 4

/-- `zext_8`: what a request or mask read returns (R102, R104). -/
def zext8 (n : Nibble) : Byte := n.setWidth 8

/-- The transfer types of R66. -/
inductive TransferType where
  | verify
  | write
  | read
  | reserved
deriving DecidableEq, Repr

/-- The transfer modes of R66. -/
inductive TransferMode where
  | demand
  | single
  | block
  | cascade
deriving DecidableEq, Repr

/-- `MODE[3:2]`, `TYPE` (R66). -/
def transferType (mode : Byte) : TransferType :=
  match mode.getLsbD 3, mode.getLsbD 2 with
  | false, false => .verify
  | false, true  => .write
  | true,  false => .read
  | true,  true  => .reserved

/-- `MODE[7:6]`, `TMODE` (R66). -/
def transferMode (mode : Byte) : TransferMode :=
  match mode.getLsbD 7, mode.getLsbD 6 with
  | false, false => .demand
  | false, true  => .single
  | true,  false => .block
  | true,  true  => .cascade

/-- `MODE[5]`, `DEC`: set means the address goes down (R66). -/
def decrements (mode : Byte) : Bool := mode.getLsbD 5

/-- `MODE[4]`, `AUTO` (R66). -/
def autoinitializes (mode : Byte) : Bool := mode.getLsbD 4

/-- `CMD[2]`, `EN` (R67). -/
def enabled (cmd : Byte) : Bool := cmd.getLsbD 2

/-- `CMD[4]`, `ROT` (R67). -/
def rotating (cmd : Byte) : Bool := cmd.getLsbD 4

end Sys2Proof.Machine
end

