-- ==== Sys2Proof/Machine/Flags.lean ====
section
/-! DEFINITION. Every flag computation of the DMAC: the one-bit-per-channel registers `REQ` and `MASK` (R18, R19), the two
groups of flags of `STATUS` (R20, R70), the eligibility of R152, and the terminal-count test of R137. -/

namespace Sys2Proof.Machine

open Sys2Proof

/-- Bit `C` of a one-bit-per-channel register (R68, R69). -/
def bitOf (n : Nibble) (c : Chan) : Bool := n.getLsbD c.val

/-- A one-bit-per-channel register with bit `C` set to 1. -/
def withBit (n : Nibble) (c : Chan) : Nibble := n ||| (1#4 <<< c.val)

/-- A one-bit-per-channel register with bit `C` cleared to 0. -/
def withoutBit (n : Nibble) (c : Chan) : Nibble := n &&& ~~~(1#4 <<< c.val)

/-- `TC[C]`, bit `C` of `STATUS` (R70). -/
def tcFlag (status : Byte) (c : Chan) : Bool := status.getLsbD c.val

/-- `RQ[C]`, bit `4 + C` of `STATUS` (R70). -/
def rqFlag (status : Byte) (c : Chan) : Bool := status.getLsbD (4 + c.val)

/-- `STATUS` with `TC[C]` set (R138, R139). -/
def withTc (status : Byte) (c : Chan) : Byte := status ||| (1#8 <<< c.val)

/-- `STATUS[7:4] <- STATUS[7:4] | elig[3:0]` (R153). -/
def withRequests (status : Byte) (elig : Nibble) : Byte := status ||| (elig ++ 0#4 : BitVec (4 + 4))

/-- The eligible channels of a tick: `elig[C] = (DRQ[C] | REQ[C]) & ~MASK[C]` (R152). -/
def eligible (q req mask : Nibble) : Nibble := (q ||| req) &&& ~~~mask

/-- Whether a step that finds this count is a terminal count: the count was `0x0000` before the decrement (R137). -/
def isTerminalCount (wcur : Word) : Bool := wcur == 0x0000#16

end Sys2Proof.Machine
end

