-- ==== Sys2Proof/Machine/Ops.lean ====
section
/-! DEFINITION. The named operations over memory and registers that the meanings are written in: memory in its canonical
form (20_memory.md R46), the register accessors, the card signals (45_card_interface.md), the address translator
(42_address_translator.md), the faults (60_exceptions.md), and the terminal count, which is the DMAC's nearest thing to
taking an exception (R193). -/

namespace Sys2Proof.Machine

open Sys2Proof

/-! ### Main memory -/

/-- What an address with no listed byte reads as. DESIGN CHOICE (log entry 3): the spec admits any value (U16). -/
def Memory.background : Byte := 0x00#8

/-- The byte at an address. -/
def Memory.read : Memory → Nat → Byte
  | [], _ => Memory.background
  | (k, v) :: rest, a => if a = k then v else Memory.read rest a

/-- The memory with one byte replaced, in canonical form again. -/
def Memory.write : Memory → Nat → Byte → Memory
  | [], a, v => if v = Memory.background then [] else [(a, v)]
  | (k, x) :: rest, a, v =>
    if a < k then
      if v = Memory.background then (k, x) :: rest else (a, v) :: (k, x) :: rest
    else if a = k then
      if v = Memory.background then rest else (k, v) :: rest
    else
      (k, x) :: Memory.write rest a v

/-- The canonical form of the cells from an address `lo` on: addresses strictly rising, below 2^24, and no entry equal to
what an unlisted address reads as. -/
def Memory.wfFrom : Nat → Memory → Bool
  | _, [] => true
  | lo, (k, v) :: rest =>
    decide (lo ≤ k) && decide (k < 2 ^ 24) && decide (v ≠ Memory.background) && Memory.wfFrom (k + 1) rest

/-- Memory is in canonical form, so that equal memories are equal data. -/
def Memory.wf (m : Memory) : Bool := Memory.wfFrom 0 m

/-- `MemRead(addr, 1)` as a value (R46). -/
def State.byteAt (s : State) (a : PhysAddr) : Byte := s.mem.read a.toNat

/-- The state with one byte of main memory replaced (R46). -/
def State.setByte (s : State) (a : PhysAddr) (v : Byte) : State :=
  { s with mem := s.mem.write a.toNat v }

/-! ### Registers -/

/-- The registers of channel `C` (R10). -/
def State.chan (s : State) (c : Chan) : Channel := s.dmac.chans[c]

/-- The state with the registers of channel `C` replaced. -/
def State.setChan (s : State) (c : Chan) (ch : Channel) : State :=
  { s with dmac := { s.dmac with chans := s.dmac.chans.set c ch } }

/-- The state with `CMD` replaced. -/
def State.setCmd (s : State) (b : Byte) : State := { s with dmac := { s.dmac with cmd := b } }

/-- The state with `REQ` replaced. -/
def State.setReq (s : State) (n : Nibble) : State := { s with dmac := { s.dmac with req := n } }

/-- The state with `MASK` replaced. -/
def State.setMask (s : State) (n : Nibble) : State := { s with dmac := { s.dmac with mask := n } }

/-- The state with `STATUS` replaced. -/
def State.setStatus (s : State) (b : Byte) : State := { s with dmac := { s.dmac with status := b } }

/-- The state with `BFF` replaced. -/
def State.setBff (s : State) (v : Bool) : State := { s with dmac := { s.dmac with bff := v } }

/-- `BFF <- ~BFF` (R21). -/
def State.toggleBff (s : State) : State := s.setBff (!s.dmac.bff)

/-- The state with `LAST` replaced. -/
def State.setLast (s : State) (c : Chan) : State := { s with dmac := { s.dmac with last := c } }

/-! ### Channel phases -/

/-- The stored phases of a channel (R30). "Servicing" lasts for one step and "continuing" and "terminal" are outcomes of
one, so no state holds them. -/
inductive Phase where
  | idle
  | armed
deriving DecidableEq, Repr

/-- Armed means `MASK[C] = 0` (R30). -/
def State.armed (s : State) (c : Chan) : Bool := !bitOf s.dmac.mask c

/-- The phase of a channel (R30). -/
def State.phase (s : State) (c : Chan) : Phase := if s.armed c then .armed else .idle

/-! ### Signals -/

/-- Put out one signal. -/
def State.emit (s : State) (g : Signal) : State := { s with trace := s.trace ++ [g] }

/-- A port read ends: the byte goes back to the bus master (R7). -/
def returnByte (v : Byte) (s : State) : Host.Outcome State Fault Refusal := .next (s.emit (.portRead v))

/-- `MemRead` as the engine performs it: the byte, and the access seen on the bus (R46). -/
def State.memRead (s : State) (a : PhysAddr) : Byte × State := (s.byteAt a, s.emit (.memRead a (s.byteAt a)))

/-- `MemWrite` as the engine performs it (R46). -/
def State.memWrite (s : State) (a : PhysAddr) (v : Byte) : State := (s.setByte a v).emit (.memWrite a v)

/-- The byte the card of channel `C` supplies next: the head of its supply, or the free value when the supply has run out
(R173, U15; log entry 2). -/
def State.cardNext (s : State) (c : Chan) : Byte :=
  match s.supply[c] with
  | v :: _ => v
  | []     => Config.cardByte s.draws

/-- The state after that byte has been taken. -/
def State.takeCardByte (s : State) (c : Chan) : State :=
  match s.supply[c] with
  | _ :: rest => { s with supply := s.supply.set c rest }
  | []        => { s with draws := s.draws + 1 }

/-- `DevGet(C)`: take one byte from the card, which sees `BPTR[C]` (R173, R175). -/
def State.devGet (s : State) (c : Chan) : Byte × State :=
  (s.cardNext c, (s.takeCardByte c).emit (.devGet c (s.chan c).bptr (s.cardNext c)))

/-- `DevPut(C, v)`: give one byte to the card, which sees `BPTR[C]` (R173, R175). -/
def State.devPut (s : State) (c : Chan) (v : Byte) : State := s.emit (.devPut c (s.chan c).bptr v)

/-- `Complete(C)` (R174): the card sees the registers as they stand (R141). -/
def State.signalComplete (s : State) (c : Chan) : State := s.emit (.complete c (s.chan c).bptr)

/-! ### The address translator -/

/-- The 16-bit address `off` units ahead in the channel's direction, wrapping modulo 2^16 (R120, R122). -/
def Channel.addressAhead (ch : Channel) (off : Word) : Word :=
  if decrements ch.mode then ch.acur - off else ch.acur + off

/-- `Phys(C, off)`: the page in bits 23:16 above the address (R120, R121). -/
def Channel.phys (ch : Channel) (off : Word) : PhysAddr := (ch.page ++ ch.addressAhead off : BitVec (8 + 16))

/-- `Phys(C, off)` of the state (R120). -/
def State.phys (s : State) (c : Chan) (off : Word) : PhysAddr := (s.chan c).phys off

/-! ### Faults -/

/-- The code of a fault (R180). -/
def Fault.code : Fault → Nat
  | .programWhileArmed _ _ _ => 1
  | .requestMasked _ _       => 2
  | .reservedType _ _        => 3
  | .cascade _ _             => 4
  | .portContract _ _        => 5
  | .badEvent _              => 6
  | .noCard _                => 7

/-- The fault a rejected event word ends in (R72, R180). -/
def faultOfDecode : DecodeError → Fault
  | .portContract off write => .portContract off write
  | .badEvent w             => .badEvent w

/-- `raise Fault`: an operation whose check fails ends in the fault and changes nothing; else it goes on (R7, R181). -/
def unlessFault (check : Option Fault) (t : State) : Host.Outcome State Fault Refusal :=
  match check with
  | some f => .fault f
  | none   => .next t

/-- `CheckNotArmed(C)` for a write of `b` to port `k` of channel `C` (R84). -/
def State.checkNotArmed (s : State) (c : Chan) (k : ChanPort) (b : Byte) : Option Fault :=
  if s.cfg.strict && s.armed c then
    some (.programWhileArmed c (s.cfg.portMap.offsetOf (.chan c k)) b)
  else
    none

/-- The four channels in the order R103 and R155 go through them. -/
def channels : List Chan := [0, 1, 2, 3]

/-- The check of a request write: the lowest channel whose request the write turns on while it is masked (R103). -/
def State.checkRequests (s : State) (b : Byte) : Option Fault :=
  if s.cfg.strict then
    (channels.find? fun c => bitOf (lowNibble b) c && !bitOf s.dmac.req c && bitOf s.dmac.mask c).map
      fun c => .requestMasked c b
  else
    none

/-! ### The terminal count -/

/-- What a terminal count of channel `C` changes, the DMAC's nearest thing to taking an exception (R193): with
autoinitialize the current registers are reloaded and the byte pointer cleared (R138), without it the channel is masked
and flagged (R139); either way the software request is withdrawn (R140) and the card is told last (R141). There is no
return from it (R194): the driver programs and unmasks the channel again through its ports. -/
def State.terminalCount (s : State) (c : Chan) : State :=
  let ch := s.chan c
  let s1 :=
    if autoinitializes ch.mode then
      let r := s.setChan c { ch with acur := ch.abase, wcur := ch.wbase, bptr := 0x0000#16 }
      if s.cfg.tcFlagOnAutoinit then r.setStatus (withTc s.dmac.status c) else r
    else
      (s.setMask (withBit s.dmac.mask c)).setStatus (withTc s.dmac.status c)
  (s1.setReq (withoutBit s.dmac.req c)).signalComplete c

end Sys2Proof.Machine
end

