-- ==== Sys2Proof/Machine/ChannelPorts.lean ====
section
/-! DEFINITION. The seven operations on the ports of one channel (40_channel_ports.md R80 to R87). -/

namespace Sys2Proof.Machine

open Sys2Proof

/-- `RD_ADDR C` (R80): the byte of `ACUR[C]` that `BFF` selects; `BFF` is inverted. -/
def execRdAddr (c : Chan) (s : State) : Host.Outcome State Fault Refusal :=
  returnByte (selectByte s.dmac.bff (s.chan c).acur) s.toggleBff

/-- `WR_ADDR C, b` (R81): the byte goes into `ABASE[C]`, all of `ACUR[C]` is reloaded from it, `BPTR[C]` is cleared, `BFF` is
inverted; fault 1 on an armed channel (R84). -/
def execWrAddr (c : Chan) (b : Byte) (s : State) : Host.Outcome State Fault Refusal :=
  let base := insertByte s.dmac.bff (s.chan c).abase b
  unlessFault (s.checkNotArmed c .addr b)
    (s.setChan c { s.chan c with abase := base, acur := base, bptr := 0x0000#16 }).toggleBff

/-- `RD_WC C` (R82): the byte of `WCUR[C]` that `BFF` selects; `BFF` is inverted. -/
def execRdWc (c : Chan) (s : State) : Host.Outcome State Fault Refusal :=
  returnByte (selectByte s.dmac.bff (s.chan c).wcur) s.toggleBff

/-- `WR_WC C, b` (R83): as `WR_ADDR`, with the word-count registers. -/
def execWrWc (c : Chan) (b : Byte) (s : State) : Host.Outcome State Fault Refusal :=
  let base := insertByte s.dmac.bff (s.chan c).wbase b
  unlessFault (s.checkNotArmed c .wc b)
    (s.setChan c { s.chan c with wbase := base, wcur := base, bptr := 0x0000#16 }).toggleBff

/-- `RD_PAGE C` (R85). -/
def execRdPage (c : Chan) (s : State) : Host.Outcome State Fault Refusal :=
  returnByte (s.chan c).page s

/-- `WR_PAGE C, b` (R86): legal in every phase. -/
def execWrPage (c : Chan) (b : Byte) (s : State) : Host.Outcome State Fault Refusal :=
  .next (s.setChan c { s.chan c with page := b })

/-- `WR_MODE C, b` (R87): all eight bits are stored, none is checked; fault 1 on an armed channel (R84). -/
def execWrMode (c : Chan) (b : Byte) (s : State) : Host.Outcome State Fault Refusal :=
  unlessFault (s.checkNotArmed c .mode b) (s.setChan c { s.chan c with mode := b })

end Sys2Proof.Machine
end

