-- ==== Sys2Proof/Machine/GlobalPorts.lean ====
section
/-! DEFINITION. The eight operations on the five controller-wide ports (41_global_ports.md R100 to R107). There is no other
port (R108). -/

namespace Sys2Proof.Machine

open Sys2Proof

/-- `RD_CMD` (R100). -/
def execRdCmd (s : State) : Host.Outcome State Fault Refusal := returnByte s.dmac.cmd s

/-- `WR_CMD b` (R101): all eight bits are stored. -/
def execWrCmd (b : Byte) (s : State) : Host.Outcome State Fault Refusal := .next (s.setCmd b)

/-- `RD_REQ` (R102): bits 7:4 are 0. -/
def execRdReq (s : State) : Host.Outcome State Fault Refusal := returnByte (zext8 s.dmac.req) s

/-- `WR_REQ b` (R103): the whole register is replaced; fault 2 when a masked channel's request goes from 0 to 1. -/
def execWrReq (b : Byte) (s : State) : Host.Outcome State Fault Refusal :=
  unlessFault (s.checkRequests b) (s.setReq (lowNibble b))

/-- `RD_MASK` (R104): bits 7:4 are 0. -/
def execRdMask (s : State) : Host.Outcome State Fault Refusal := returnByte (zext8 s.dmac.mask) s

/-- `WR_MASK b` (R105): the whole register is replaced. -/
def execWrMask (b : Byte) (s : State) : Host.Outcome State Fault Refusal := .next (s.setMask (lowNibble b))

/-- `RD_STATUS` (R106): all eight flags are returned and cleared in one operation. -/
def execRdStatus (s : State) : Host.Outcome State Fault Refusal := returnByte s.dmac.status (s.setStatus 0x00#8)

/-- `WR_CLRFF b` (R107): `BFF` is cleared whatever byte is written. -/
def execWrClrff (_b : Byte) (s : State) : Host.Outcome State Fault Refusal := .next (s.setBff false)

end Sys2Proof.Machine
end

