-- ==== Sys2Proof/Machine/ResetOp.lean ====
section
/-! DEFINITION. The reset operation (70_reset_and_hazards.md R210, R211). -/

namespace Sys2Proof.Machine

open Sys2Proof

/-- The values `Reset()` gives every register (R210): all channel registers zero, all channels masked, `LAST = 3`. -/
def resetRegisters : Dmac where
  chans  := Vector.replicate 4
    { mode := 0x00#8, page := 0x00#8, abase := 0x0000#16, acur := 0x0000#16, wbase := 0x0000#16, wcur := 0x0000#16, bptr := 0x0000#16 }
  cmd    := 0x00#8
  req    := 0b0000#4
  mask   := 0b1111#4
  status := 0x00#8
  bff    := false
  last   := 3

/-- `RESET` (R210): every register of the DMAC and nothing else; memory, cards and bindings stay (R211). -/
def execReset (s : State) : Host.Outcome State Fault Refusal := .next { s with dmac := resetRegisters }

end Sys2Proof.Machine
end

