-- ==== Sys2Proof/Machine/Transfer.lean ====
section
/-! DEFINITION. The Transfer Engine: one unit of a channel's transfer, in the six numbered actions of 43_transfer_engine.md
R130. -/

namespace Sys2Proof.Machine

open Sys2Proof

/-- `Admit(C)` (R132): the three forms the engine does not step, checked in this order before any change. -/
def State.admission (s : State) (c : Chan) : Option Fault :=
  if s.cfg.cards[c] = none then some (.noCard c)
  else if transferType (s.chan c).mode = .reserved then some (.reservedType c (s.chan c).mode)
  else if transferMode (s.chan c).mode = .cascade then some (.cascade c (s.chan c).mode)
  else none

/-- `BPTR[C] <- (BPTR[C] + 1) mod 2^16`, after a byte has been moved (R134). -/
def State.bumpBptr (s : State) (c : Chan) : State :=
  s.setChan c { s.chan c with bptr := (s.chan c).bptr + 1 }

/-- Actions 1 and 2: translate, and move one byte as the transfer type says (R133). A reserved type is not admitted and
moves nothing. -/
def State.moveUnit (s : State) (c : Chan) : State :=
  let pa := s.phys c 0x0000#16
  match transferType (s.chan c).mode with
  | .read =>
    let r := s.memRead pa
    (r.2.devPut c r.1).bumpBptr c
  | .write =>
    let r := s.devGet c
    (r.2.memWrite pa r.1).bumpBptr c
  | .verify => s
  | .reserved => s

/-- Action 3: the address advances or retreats by one, modulo 2^16 (R135). -/
def State.advanceAddress (s : State) (c : Chan) : State :=
  s.setChan c { s.chan c with acur := (s.chan c).addressAhead 0x0001#16 }

/-- Action 4: the count goes down by one, modulo 2^16 (R136). -/
def State.countDown (s : State) (c : Chan) : State :=
  s.setChan c { s.chan c with wcur := (s.chan c).wcur - 1 }

/-- The step of an admitted channel: actions 1 to 4, then 5 and 6 at a terminal count (R130, R137). -/
def State.transferUnit (s : State) (c : Chan) : State :=
  let counted := ((s.moveUnit c).advanceAddress c).countDown c
  if isTerminalCount (s.chan c).wcur then counted.terminalCount c else counted

/-- `Step(C)` (R130). -/
def engineStep (c : Chan) (s : State) : Host.Outcome State Fault Refusal :=
  unlessFault (s.admission c) (s.transferUnit c)

end Sys2Proof.Machine
end

