-- ==== Sys2Proof/Machine/Scheduler.lean ====
section
/-! DEFINITION. The Service Scheduler: the tick of 44_service_scheduler.md R150. -/

namespace Sys2Proof.Machine

open Sys2Proof

/-- `FixedPick`: the least eligible channel (R155). -/
def fixedPick (elig : Nibble) : Option Chan := channels.find? fun c => bitOf elig c

/-- The channels in rotating order, the one after the last serviced first, the last serviced one last (R156). -/
def rotation (last : Chan) : List Chan := [last + 1, last + 2, last + 3, last]

/-- `RotatingPick` (R156). -/
def rotatingPick (elig : Nibble) (last : Chan) : Option Chan := (rotation last).find? fun c => bitOf elig c

/-- The eligible channels of a tick with request lines `q` (R152). -/
def State.eligibleAt (s : State) (q : Nibble) : Nibble := eligible q s.dmac.req s.dmac.mask

/-- The channel a tick with request lines `q` selects, by the policy `CMD.ROT` names (R155, R156). -/
def State.selectAt (s : State) (q : Nibble) : Option Chan :=
  if rotating s.dmac.cmd then rotatingPick (s.eligibleAt q) s.dmac.last else fixedPick (s.eligibleAt q)

/-- The request flags of a tick are set for every eligible channel (R153). -/
def State.flagRequests (s : State) (q : Nibble) : State :=
  s.setStatus (withRequests s.dmac.status (s.eligibleAt q))

/-- The end of a tick: `LAST` is the channel that was serviced (R157); a fault abandons the whole tick (R150). -/
def servicedBy (c : Chan) : Host.Outcome State Fault Refusal → Host.Outcome State Fault Refusal
  | .next t    => .next (t.setLast c)
  | .fault f   => .fault f
  | .refused r => .refused r

/-- `TICK q` (R150). -/
def execTick (q : Nibble) (s : State) : Host.Outcome State Fault Refusal :=
  if enabled s.dmac.cmd then
    match s.selectAt q with
    | none   => .next (s.flagRequests q)
    | some c => servicedBy c (engineStep c (s.flagRequests q))
  else
    .next s

end Sys2Proof.Machine
end

