-- ==== Sys2Proof/Machine/Dispatch.lean ====
section
/-! DEFINITION. What each instruction does: one arm per constructor, one meaning per arm. -/

namespace Sys2Proof.Machine

open Sys2Proof

def exec (i : Instr) (s : State) : Host.Outcome State Fault Refusal :=
  match i with
  -- channel ports (40_channel_ports.md)
  | .rdAddr c => Sys2Proof.Machine.execRdAddr c s
  | .wrAddr c b => Sys2Proof.Machine.execWrAddr c b s
  | .rdWc c => Sys2Proof.Machine.execRdWc c s
  | .wrWc c b => Sys2Proof.Machine.execWrWc c b s
  | .rdPage c => Sys2Proof.Machine.execRdPage c s
  | .wrPage c b => Sys2Proof.Machine.execWrPage c b s
  | .wrMode c b => Sys2Proof.Machine.execWrMode c b s
  -- global ports (41_global_ports.md)
  | .rdCmd => Sys2Proof.Machine.execRdCmd s
  | .wrCmd b => Sys2Proof.Machine.execWrCmd b s
  | .rdReq => Sys2Proof.Machine.execRdReq s
  | .wrReq b => Sys2Proof.Machine.execWrReq b s
  | .rdMask => Sys2Proof.Machine.execRdMask s
  | .wrMask b => Sys2Proof.Machine.execWrMask b s
  | .rdStatus => Sys2Proof.Machine.execRdStatus s
  | .wrClrff b => Sys2Proof.Machine.execWrClrff b s
  -- the scheduler tick (44_service_scheduler.md) and reset (70_reset_and_hazards.md)
  | .tick q => Sys2Proof.Machine.execTick q s
  | .reset => Sys2Proof.Machine.execReset s

end Sys2Proof.Machine
end

