-- ==== Sys2Proof/Machine/Inputs.lean ====
section
/-! DEFINITION. Where operations come from: the input queue (20_memory.md R52), the CPU's own accesses to main memory (R52
item 3), the pseudo-operations of 30_encoding.md R76 as lists of operations, and how a list of operations is laid out as
inputs. -/

namespace Sys2Proof.Machine

open Sys2Proof

/-- An event word arrives: decode it under the machine's port map and run it, or end in the fault of R72. -/
def runWord (w : EventWord) (s : State) : Host.Outcome State Fault Refusal :=
  match decode s.cfg.portMap w with
  | .instr i  => exec i s
  | .reject e => .fault (faultOfDecode e)

/-- One input of the total order (R52). -/
def runInput (x : Input) (s : State) : Host.Outcome State Fault Refusal :=
  match x with
  | .op w         => runWord w s
  | .cpuStore a v => .next (s.setByte a v)
  | .cpuLoad a    => .next (s.emit (.cpuLoad a (s.byteAt a)))

/-- The next input is taken off the queue and runs; with none to come nothing happens (log entry 1). -/
def runNext (s : State) : Host.Outcome State Fault Refusal :=
  match s.inputs with
  | []        => .next s
  | x :: rest => runInput x { s with inputs := rest }

/-- A list of operations as inputs, each by its event word. -/
def inputsOf (pm : PortMap) (is : List Instr) : List Input := is.map fun i => .op (encode pm i)

/-- `LD_ADDR C, w` (R76). -/
def ldAddr (c : Chan) (w : Word) : List Instr :=
  [.wrClrff 0x00#8, .wrAddr c (w.extractLsb' 0 8), .wrAddr c (w.extractLsb' 8 8)]

/-- `LD_WC C, w` (R76). -/
def ldWc (c : Chan) (w : Word) : List Instr :=
  [.wrClrff 0x00#8, .wrWc c (w.extractLsb' 0 8), .wrWc c (w.extractLsb' 8 8)]

/-- `GET_ADDR C -> w` (R76): the two bytes read are `w[7:0]`, then `w[15:8]`. -/
def getAddr (c : Chan) : List Instr := [.wrClrff 0x00#8, .rdAddr c, .rdAddr c]

/-- `GET_WC C -> w` (R76). -/
def getWc (c : Chan) : List Instr := [.wrClrff 0x00#8, .rdWc c, .rdWc c]

/-- `UNMASK C`, given the current mask value (R76). -/
def unmask (c : Chan) (m : Nibble) : Instr := .wrMask (zext8 (withoutBit m c))

end Sys2Proof.Machine
end

