-- ==== Sys2Proof/Machine/Step.lean ====
section
/-! DEFINITION. One step of the machine: the next operation of the total order of 20_memory.md R52. -/

namespace Sys2Proof.Machine

open Sys2Proof

/-- One step: the next input is taken off the queue and runs (R52, log entry 1). -/
def step (s : State) : Host.Outcome State Fault Refusal := runNext s

/-- The state with one event word put at the head of the input queue: the very next step runs it. The table numbers an
event word's bits as R62 does, so the word is taken as it is. -/
def State.withFetchWord (s : State) (_nbits w : Nat) : State :=
  { s with inputs := .op (BitVec.ofNat 16 w) :: s.inputs }

end Sys2Proof.Machine
end

