-- ==== Sys2Proof/Safety.lean ====
section
/-! DEFINITION. What claims about the machine are stated in: what a run is and when it is a good one (60_exceptions.md
R181: a faulted outcome is never a good final state), what it means to leave everything else unchanged, when a tick services
a channel, and the invariant every step keeps. -/

namespace Sys2Proof.Machine

open Sys2Proof

/-- `k` steps lead from `s` to `t` with no fault and no refusal. -/
def Runs (k : Nat) (s t : State) : Prop := Sys2Proof.core.run k s = .next t

/-- A run of `k` steps is safe: it ends in a state (R181). -/
def SafeRun (k : Nat) (s : State) : Prop := ∃ t, Runs k s t

/-- Everything that is no register of the DMAC and no output of it is the same: every byte of memory, the configuration, the
inputs to come and the bytes the cards will supply. -/
structure SameSurroundings (s t : State) : Prop where
  memory : ∀ a : PhysAddr, t.byteAt a = s.byteAt a
  cfg    : t.cfg = s.cfg
  inputs : t.inputs = s.inputs
  supply : t.supply = s.supply
  draws  : t.draws = s.draws

/-- The registers of every channel but `c` are the same. -/
def SameOtherChannels (c : Chan) (s t : State) : Prop := ∀ d, d ≠ c → t.chan d = s.chan d

/-- Bit `c` of a request-line value, written out (R64). -/
def lineOf (q : Nibble) (c : Chan) : Bool := q.getLsbD c.val

/-- Channel `c` is eligible at a tick with lines `q`: requesting, by line or by software bit, and not masked (R152). -/
def EligibleAt (s : State) (q : Nibble) (c : Chan) : Prop :=
  (lineOf q c = true ∨ s.dmac.req.getLsbD c.val = true) ∧ s.dmac.mask.getLsbD c.val = false

/-- The engine admits channel `c`: a card is bound, the transfer type is one of the three and the transfer mode is not
cascade (R132), in terms of the bits of R66. -/
def Admitted (s : State) (c : Chan) : Prop :=
  s.cfg.cards[c] ≠ none ∧ (s.chan c).mode.extractLsb' 2 2 ≠ 0b11#2 ∧ (s.chan c).mode.extractLsb' 6 2 ≠ 0b11#2

/-- A tick with lines `q` services channel `c`: the controller is enabled, the policy selects `c`, and the engine admits
it. -/
def Services (s : State) (q : Nibble) (c : Chan) : Prop :=
  s.dmac.cmd.getLsbD 2 = true ∧ s.selectAt q = some c ∧ Admitted s c

/-- The signal a tick ends with at a terminal count of `c`, which the card sees with the byte pointer `p`; none otherwise
(R141). -/
def completion (wcur : Word) (c : Chan) (p : Word) : List Signal :=
  if wcur = 0x0000#16 then [.complete c p] else []

/-- How many times a trace signals the completion of channel `c`. -/
def completions (c : Chan) : List Signal → Nat
  | [] => 0
  | .complete d _ :: rest => (if d = c then 1 else 0) + completions c rest
  | .portRead _ :: rest => completions c rest
  | .memRead _ _ :: rest => completions c rest
  | .memWrite _ _ :: rest => completions c rest
  | .devGet _ _ _ :: rest => completions c rest
  | .devPut _ _ _ :: rest => completions c rest
  | .cpuLoad _ _ :: rest => completions c rest

/-- The bytes the card of channel `c` has been given, in order (R173). -/
def putBytes (c : Chan) : List Signal → List Byte
  | [] => []
  | .devPut d _ v :: rest => if d = c then v :: putBytes c rest else putBytes c rest
  | .portRead _ :: rest => putBytes c rest
  | .memRead _ _ :: rest => putBytes c rest
  | .memWrite _ _ :: rest => putBytes c rest
  | .devGet _ _ _ :: rest => putBytes c rest
  | .complete _ _ :: rest => putBytes c rest
  | .cpuLoad _ _ :: rest => putBytes c rest

/-- Only channel `c` is eligible at a tick with lines `q`. -/
def OnlyEligible (s : State) (q : Nibble) (c : Chan) : Prop :=
  EligibleAt s q c ∧ ∀ d, d ≠ c → ¬ EligibleAt s q d

/-- A write to a port that programs channel `c` is allowed: the preconditions are not checked or the channel is masked
(R84). -/
def MayProgram (s : State) (c : Chan) : Prop := s.cfg.strict = false ∨ s.dmac.mask.getLsbD c.val = true

/-- `MODE[C].AUTO` of a channel, written out (R66). -/
def autoBit (ch : Channel) : Bool := ch.mode.getLsbD 4

/-- `ACUR ± n` modulo 2^16, down when `MODE[C].DEC` is set (R66, R135, R143), as a number; `n` is at most 2^16. -/
def addressAfter (ch : Channel) (n : Nat) : Nat :=
  if ch.mode.getLsbD 5 then (ch.acur.toNat + (2 ^ 16 - n)) % 2 ^ 16 else (ch.acur.toNat + n) % 2 ^ 16

/-- The inputs of a run of ticks with the lines of `qs`, then whatever comes after. -/
def ticks (pm : PortMap) (qs : List Nibble) : List Input := inputsOf pm (qs.map Instr.tick)

/-- The next step runs operation `i`: its event word is the first input (R52). -/
def RunsNext (s : State) (i : Instr) : Prop :=
  ∃ w rest, s.inputs = .op w :: rest ∧ decode s.cfg.portMap w = .instr i

/-- The operations that give channel `c` other registers to work with than its own steps leave: a write to its address,
word-count or mode port, and reset. A page write is not one: it takes the units that follow to another page (R86). -/
def Reprograms (c : Chan) (i : Instr) : Prop :=
  i = .reset ∨ ∃ b, i = .wrAddr c b ∨ i = .wrWc c b ∨ i = .wrMode c b

/-- A run in which channel `c` gets `n` Transfer Engine steps and is not reprogrammed, and anything else may happen between
them: other request lines, other channels' steps, port accesses, the CPU's accesses to memory (R143 counts steps, not
ticks). -/
inductive TransferRun (c : Chan) : Nat → State → State → Prop where
  /-- No step at all. -/
  | nil (s : State) : TransferRun c 0 s s
  /-- A step of the machine that services `c`, then a run with `n` more. -/
  | service {n : Nat} {s u t : State} {q : Nibble} : RunsNext s (.tick q) → Services s q c → step s = .next u →
      TransferRun c n u t → TransferRun c (n + 1) s t
  /-- A step of the machine that neither services nor reprograms `c`, then a run. -/
  | other {n : Nat} {s u t : State} : (∀ i, RunsNext s i → ¬ Reprograms c i) →
      (∀ q, RunsNext s (.tick q) → ¬ Services s q c) → step s = .next u → TransferRun c n u t → TransferRun c n s t

/-- The invariant of the machine: memory keeps its canonical form, the port map stays one-to-one, and a terminal-count flag
stands in `STATUS` only if its channel's completion has been signalled. -/
structure MachineInv (s : State) : Prop where
  memory  : s.mem.wf = true
  portMap : s.cfg.portMap.oneToOne = true
  flagged : ∀ c : Chan, s.dmac.status.getLsbD c.val = true → ∃ p, Signal.complete c p ∈ s.trace

end Sys2Proof.Machine
end

