-- ==== Sys2Proof/Certificates/Slice0/Obligations.lean ====
section
/-! DEFINITION. The statements for the provers, in the order of OBLIGATIONS.json: encoding, the step, the ports, the
translator, the tick, the whole machine, progress, the invariant, reset. Register values are written as numbers, so that a
statement does not repeat the definition it is about. -/

open Sys2Proof Sys2Proof.Machine

/-! ### Encoding -/

/-- 30_encoding.md section 2 (R62 to R65), for every one-to-one port map (R61): no bit of any operand is dropped. The words
are the spec's decision D2. -/
def Obligations.DecodeOfEncode : Prop :=
  ∀ (pm : PortMap) (i : Instr), pm.oneToOne = true → decode pm (encode pm i) = .instr i

/-- The other direction: a word that decodes to an operation is that operation's word, but for the data bits of a read,
which the decoder ignores (30_encoding.md section 2; decision D2). -/
def Obligations.EncodeOfDecode : Prop :=
  ∀ (pm : PortMap) (w : EventWord) (i : Instr), pm.oneToOne = true → decode pm w = .instr i →
    encode pm i = w.canonicalForm ∧ w.canonicalForm.canonical = true ∧ decode pm w.canonicalForm = .instr i

/-- opcode_table.json: under the default port map a word decodes to a row's operation exactly when its bits under the row's
mask are the row's match. -/
def Obligations.OpcodeTableRowsDecode : Prop :=
  ∀ row ∈ opcodeTable, ∀ w : EventWord,
    (w &&& row.mask = row.pattern) ↔ ∃ i, decode PortMap.default w = .instr i ∧ i.mnemonic = row.mnemonic

/-- The illegal forms of 30_encoding.md section 5 (R72, decisions D2 and D18) under the default port map, and no others:
port accesses at offsets 21 to 31, mode reads, status writes and flip-flop-clear reads; words of kind 3, tick words with a
bit of 13:4 set, reset words with a bit of 13:0 set. -/
def Obligations.RejectedWordsAreTheIllegalForms : Prop :=
  ∀ w : EventWord,
    (∀ off wr, decode PortMap.default w = .reject (.portContract off wr) ↔
      w.toNat < 0x4000 ∧ off.toNat = w.toNat / 256 % 32 ∧ (wr = true ↔ w.toNat / 8192 % 2 = 1) ∧
      (21 ≤ off.toNat ∨ (off.toNat < 16 ∧ off.toNat % 4 = 3 ∧ wr = false) ∨ (off.toNat = 19 ∧ wr = true) ∨
        (off.toNat = 20 ∧ wr = false))) ∧
    (∀ v, decode PortMap.default w = .reject (.badEvent v) ↔
      v = w ∧ ((0x4010 ≤ w.toNat ∧ w.toNat < 0x8000) ∨ 0x8000 < w.toNat))

/-- Words of 30_encoding.md section 7 (R75), one or more of each format of opcode_table.json. -/
def Obligations.SampleWordsDecode : Prop :=
  decode PortMap.default 0x0400 = .instr (.rdAddr 1) ∧
  decode PortMap.default 0x2812 = .instr (.wrAddr 2 0x12) ∧
  decode PortMap.default 0x0D00 = .instr (.rdWc 3) ∧
  decode PortMap.default 0x2E01 = .instr (.wrPage 3 0x01) ∧
  decode PortMap.default 0x2348 = .instr (.wrMode 0 0x48) ∧
  decode PortMap.default 0x1300 = .instr .rdStatus ∧
  decode PortMap.default 0x320D = .instr (.wrMask 0x0D) ∧
  decode PortMap.default 0x3499 = .instr (.wrClrff 0x99) ∧
  decode PortMap.default 0x400A = .instr (.tick 0xA) ∧
  decode PortMap.default 0x8000 = .instr .reset

/-! ### The step and the order of operations -/

/-- The step takes the first input off the queue; an event word that decodes to an operation runs as that operation
(20_memory.md section 7; the queue is the model's, log entry 1). -/
def Obligations.StepRunsDecodedWord : Prop :=
  ∀ (s : State) (w : EventWord) (rest : List Input) (i : Instr),
    s.inputs = .op w :: rest → decode s.cfg.portMap w = .instr i →
    step s = exec i { s with inputs := rest }

/-- An illegal word ends the run in fault 5 or 6 with its items (30_encoding.md section 5, 60_exceptions.md section 1;
decisions D18, D21). -/
def Obligations.StepFaultsOnIllegalWord : Prop :=
  ∀ (s : State) (w : EventWord) (rest : List Input), s.inputs = .op w :: rest →
    (∀ off wr, decode s.cfg.portMap w = .reject (.portContract off wr) →
      ∃ f, step s = .fault f ∧ f = .portContract off wr ∧ f.code = 5) ∧
    (∀ v, decode s.cfg.portMap w = .reject (.badEvent v) →
      ∃ f, step s = .fault f ∧ f = .badEvent w ∧ f.code = 6)

/-- 20_memory.md section 7, item 3: "a byte the CPU stored before a tick is what that tick's `MemRead` returns". The CPU's
store as an input is the model's (log entry 7). -/
def Obligations.CpuStoreSeenByNextTick : Prop :=
  ∀ (s : State) (c : Chan) (q : Nibble) (v : Byte) (rest : List Input),
    s.mem.wf = true → s.cfg.portMap.oneToOne = true → Services s q c →
    (s.chan c).mode.extractLsb' 2 2 = 0b10#2 →
    s.inputs = .cpuStore (s.phys c 0#16) v :: .op (encode s.cfg.portMap (.tick q)) :: rest →
    ∃ t, Runs 2 s t ∧ t.inputs = rest ∧ t.byteAt (s.phys c 0#16) = v ∧
      t.trace = s.trace ++ [.memRead (s.phys c 0#16) v, .devPut c (s.chan c).bptr v] ++
        completion (s.chan c).wcur c (t.chan c).bptr

/-- 20_memory.md section 7, item 3: "a byte the DMAC wrote at a tick is what any later CPU load of that address returns":
whatever comes between that stores nothing to the address, by the CPU or by the DMAC. The byte is the head of the card's
supply, or a free value (log entry 2). The CPU's accesses as inputs and the record of the DMAC's stores are the model's (log
entries 6 and 7); the layout of the mode is decision D3. -/
def Obligations.CpuLoadSeesEngineStore : Prop :=
  ∀ (s : State) (c : Chan) (q : Nibble) (mid rest : List Input),
    s.mem.wf = true → Services s q c → (s.chan c).mode.extractLsb' 2 2 = 0b01#2 →
    s.inputs = .op (encode s.cfg.portMap (.tick q)) :: (mid ++ .cpuLoad (s.phys c 0#16) :: rest) →
    ∃ (t : State) (v : Byte), step s = .next t ∧ (∀ w more, s.supply[c] = w :: more → v = w) ∧
      t.trace = s.trace ++ [.devGet c (s.chan c).bptr v, .memWrite (s.phys c 0#16) v] ++
        completion (s.chan c).wcur c (t.chan c).bptr ∧
      ∀ u, Runs mid.length t u → (∀ w, Input.cpuStore (s.phys c 0#16) w ∉ mid) →
        (∀ w, Signal.memWrite (s.phys c 0#16) w ∉ u.trace.drop t.trace.length) →
        ∃ x, step u = .next x ∧ x.inputs = rest ∧ x.trace = u.trace ++ [.cpuLoad (s.phys c 0#16) v]

/-! ### Channel ports -/

/-- 40_channel_ports.md section 1 (R80): the byte of `ACUR[C]` that `BFF` selects, `BFF` inverted, nothing else changed, no fault in any phase. The
encoding clause is for the default port map (decisions D1, D2). -/
def Obligations.ReadAddressPort : Prop :=
  ∀ (s : State) (c : Chan), ∃ (t : State) (v : Byte),
    exec (.rdAddr c) s = .next t ∧
    v.toNat = (if s.dmac.bff then (s.chan c).acur.toNat / 256 else (s.chan c).acur.toNat % 256) ∧
    t.trace = s.trace ++ [.portRead v] ∧
    t.dmac = { s.dmac with bff := !s.dmac.bff } ∧ SameSurroundings s t ∧
    (encode PortMap.default (.rdAddr c)).toNat = 0x400 * c.val

/-- 40_channel_ports.md section 2 (R82): as R80, with `WCUR[C]`. The encoding clause is for the default port map (decisions D1, D2). -/
def Obligations.ReadWordCountPort : Prop :=
  ∀ (s : State) (c : Chan), ∃ (t : State) (v : Byte),
    exec (.rdWc c) s = .next t ∧
    v.toNat = (if s.dmac.bff then (s.chan c).wcur.toNat / 256 else (s.chan c).wcur.toNat % 256) ∧
    t.trace = s.trace ++ [.portRead v] ∧
    t.dmac = { s.dmac with bff := !s.dmac.bff } ∧ SameSurroundings s t ∧
    (encode PortMap.default (.rdWc c)).toNat = 0x0100 + 0x400 * c.val

/-- 40_channel_ports.md section 1 (R81): the byte lands in the half of `ABASE[C]` that `BFF` selects, all of `ACUR[C]` is
reloaded, `BFF` inverted. That `BPTR[C]` is cleared is decision D12, when the write is allowed decision D17. -/
def Obligations.WriteAddressPort : Prop :=
  ∀ (s : State) (c : Chan) (b : Byte), MayProgram s c → ∃ t : State,
    exec (.wrAddr c b) s = .next t ∧
    (t.chan c).abase.toNat = (if s.dmac.bff then b.toNat * 256 + (s.chan c).abase.toNat % 256
      else (s.chan c).abase.toNat / 256 * 256 + b.toNat) ∧
    (t.chan c).acur = (t.chan c).abase ∧ (t.chan c).bptr = 0x0000#16 ∧
    (t.chan c).mode = (s.chan c).mode ∧ (t.chan c).page = (s.chan c).page ∧
    (t.chan c).wbase = (s.chan c).wbase ∧ (t.chan c).wcur = (s.chan c).wcur ∧
    SameOtherChannels c s t ∧
    t.dmac = { s.dmac with chans := t.dmac.chans, bff := !s.dmac.bff } ∧
    SameSurroundings s t ∧ t.trace = s.trace

/-- 40_channel_ports.md section 2 (R83): as the address port, with the word-count registers. Decisions D12 and D17 as
there. -/
def Obligations.WriteWordCountPort : Prop :=
  ∀ (s : State) (c : Chan) (b : Byte), MayProgram s c → ∃ t : State,
    exec (.wrWc c b) s = .next t ∧
    (t.chan c).wbase.toNat = (if s.dmac.bff then b.toNat * 256 + (s.chan c).wbase.toNat % 256
      else (s.chan c).wbase.toNat / 256 * 256 + b.toNat) ∧
    (t.chan c).wcur = (t.chan c).wbase ∧ (t.chan c).bptr = 0x0000#16 ∧
    (t.chan c).mode = (s.chan c).mode ∧ (t.chan c).page = (s.chan c).page ∧
    (t.chan c).abase = (s.chan c).abase ∧ (t.chan c).acur = (s.chan c).acur ∧
    SameOtherChannels c s t ∧
    t.dmac = { s.dmac with chans := t.dmac.chans, bff := !s.dmac.bff } ∧
    SameSurroundings s t ∧ t.trace = s.trace

/-- 40_channel_ports.md section 3 (R85): the page is returned and nothing changes. The encoding clause is for the default port map (decisions D1,
D2). -/
def Obligations.ReadPagePort : Prop :=
  ∀ (s : State) (c : Chan), ∃ t : State,
    exec (.rdPage c) s = .next t ∧ t.trace = s.trace ++ [.portRead (s.chan c).page] ∧
    t.dmac = s.dmac ∧ SameSurroundings s t ∧
    (encode PortMap.default (.rdPage c)).toNat = 0x0200 + 0x400 * c.val

/-- 40_channel_ports.md section 3 (R86): in any phase the page is replaced and nothing else changes; the new page is in the address of the very next
unit; writing the value already held changes nothing. The encoding clause is for the default port map (decisions D1, D2). -/
def Obligations.WritePagePort : Prop :=
  ∀ (s : State) (c : Chan) (b : Byte), ∃ t : State,
    exec (.wrPage c b) s = .next t ∧ t.chan c = { s.chan c with page := b } ∧ SameOtherChannels c s t ∧
    t.dmac = { s.dmac with chans := t.dmac.chans } ∧ SameSurroundings s t ∧ t.trace = s.trace ∧
    (t.phys c 0#16).toNat = b.toNat * 65536 + (s.chan c).acur.toNat ∧
    ((s.chan c).page = b → t = s) ∧
    (encode PortMap.default (.wrPage c b)).toNat = 0x2200 + 0x400 * c.val + b.toNat

/-- 40_channel_ports.md section 4 (R87): all eight bits are stored, nothing is reloaded or cleared. When the write is
allowed is decision D17. -/
def Obligations.WriteModePort : Prop :=
  ∀ (s : State) (c : Chan) (b : Byte), MayProgram s c → ∃ t : State,
    exec (.wrMode c b) s = .next t ∧ t.chan c = { s.chan c with mode := b } ∧ SameOtherChannels c s t ∧
    t.dmac = { s.dmac with chans := t.dmac.chans } ∧ SameSurroundings s t ∧ t.trace = s.trace

/-- 40_channel_ports.md section 2 (R84) with 60_exceptions.md section 1: with strict preconditions a write to the address,
word-count or mode port of an armed channel ends in fault 1, with the channel, the port's offset and the byte (decisions
D17, D21). -/
def Obligations.ProgrammingArmedChannelFaults : Prop :=
  ∀ (s : State) (c : Chan) (b : Byte), s.cfg.strict = true → s.dmac.mask.getLsbD c.val = false →
    (exec (.wrAddr c b) s = .fault (.programWhileArmed c (s.cfg.portMap.offsetOf (.chan c .addr)) b)) ∧
    (exec (.wrWc c b) s = .fault (.programWhileArmed c (s.cfg.portMap.offsetOf (.chan c .wc)) b)) ∧
    (exec (.wrMode c b) s = .fault (.programWhileArmed c (s.cfg.portMap.offsetOf (.chan c .mode)) b)) ∧
    (∀ off, (Fault.programWhileArmed c off b).code = 1)

/-! ### Global ports -/

/-- 41_global_ports.md section 1 (R100, R101): a write stores all eight bits and a read returns them; nothing else changes. -/
def Obligations.CommandPort : Prop :=
  ∀ (s : State) (b : Byte),
    (∃ t, exec .rdCmd s = .next t ∧ t.trace = s.trace ++ [.portRead s.dmac.cmd] ∧ t.dmac = s.dmac ∧
      SameSurroundings s t) ∧
    (∃ t, exec (.wrCmd b) s = .next t ∧ t.dmac = { s.dmac with cmd := b } ∧ SameSurroundings s t ∧
      t.trace = s.trace ∧ ∃ u, exec .rdCmd t = .next u ∧ u.trace = s.trace ++ [.portRead b])

/-- 41_global_ports.md section 3 (R104, R105): a read returns `MASK` above four zero bits and changes nothing; a write
replaces `MASK` by the low nibble of the byte and changes nothing else. The layout is decision D7. -/
def Obligations.MaskPort : Prop :=
  ∀ (s : State) (b : Byte),
    (∃ (t : State) (v : Byte), exec .rdMask s = .next t ∧ v.toNat = s.dmac.mask.toNat ∧
      t.trace = s.trace ++ [.portRead v] ∧ t.dmac = s.dmac ∧ SameSurroundings s t) ∧
    (∃ t, exec (.wrMask b) s = .next t ∧ t.dmac.mask.toNat = b.toNat % 16 ∧
      t.dmac = { s.dmac with mask := t.dmac.mask } ∧ SameSurroundings s t ∧ t.trace = s.trace)

/-- 41_global_ports.md section 2 (R102, R103): a read returns `REQ` above four zero bits; a write that turns on no masked
channel's request, or any write when preconditions are not checked, replaces `REQ` by the low nibble. The layout is
decision D7, the condition decision D17. -/
def Obligations.RequestPort : Prop :=
  ∀ (s : State) (b : Byte),
    (∃ (t : State) (v : Byte), exec .rdReq s = .next t ∧ v.toNat = s.dmac.req.toNat ∧
      t.trace = s.trace ++ [.portRead v] ∧ t.dmac = s.dmac ∧ SameSurroundings s t) ∧
    ((s.cfg.strict = false ∨ ∀ c : Chan, b.getLsbD c.val = true →
        s.dmac.req.getLsbD c.val = true ∨ s.dmac.mask.getLsbD c.val = false) →
      ∃ t, exec (.wrReq b) s = .next t ∧ t.dmac.req.toNat = b.toNat % 16 ∧
        t.dmac = { s.dmac with req := t.dmac.req } ∧ SameSurroundings s t ∧ t.trace = s.trace)

/-- 41_global_ports.md section 2 (R103): with strict preconditions a request write ends in fault 2 exactly when it turns a
masked channel's bit from 0 to 1, and the fault, code 2, names the lowest such channel (decisions D17, D21, D26). -/
def Obligations.RequestWriteFaultsAtLowestChannel : Prop :=
  ∀ (s : State) (b : Byte) (f : Fault), s.cfg.strict = true →
    (exec (.wrReq b) s = .fault f ↔ ∃ c : Chan, f = .requestMasked c b ∧ f.code = 2 ∧
      (b.getLsbD c.val = true ∧ s.dmac.req.getLsbD c.val = false ∧ s.dmac.mask.getLsbD c.val = true) ∧
      ∀ d : Chan, d < c →
        ¬ (b.getLsbD d.val = true ∧ s.dmac.req.getLsbD d.val = false ∧ s.dmac.mask.getLsbD d.val = true))

/-- 41_global_ports.md section 4 (R106): all eight flags are returned and cleared in one operation, and nothing else changes; the next status read
returns zero. The encoding clause is for the default port map (decisions D1, D2). -/
def Obligations.StatusReadClears : Prop :=
  ∀ s : State, ∃ t : State,
    exec .rdStatus s = .next t ∧ t.trace = s.trace ++ [.portRead s.dmac.status] ∧
    t.dmac = { s.dmac with status := 0x00#8 } ∧ SameSurroundings s t ∧
    (∃ u, exec .rdStatus t = .next u ∧ u.trace = t.trace ++ [.portRead 0x00#8]) ∧
    encode PortMap.default .rdStatus = 0x1300

/-- 41_global_ports.md section 5 (R107): `BFF` is cleared whatever is written and whatever it was, nothing else changes; with `BFF` already 0
nothing changes at all. The encoding clause is for the default port map (decisions D1, D2). -/
def Obligations.ClearFlipFlop : Prop :=
  ∀ (s : State) (b : Byte), ∃ t : State,
    exec (.wrClrff b) s = .next t ∧ t.dmac = { s.dmac with bff := false } ∧ SameSurroundings s t ∧
    t.trace = s.trace ∧ (s.dmac.bff = false → t = s) ∧
    (encode PortMap.default (.wrClrff b)).toNat = 0x3400 + b.toNat

/-- 20_memory.md section 5: "Writes to `mask`, `request`, and `command` ports take effect immediately and are idempotent —
writing the same value twice produces no additional effect", and "A page write and a mode write are idempotent in the same
sense". -/
def Obligations.ImmediateWritesAreIdempotent : Prop :=
  ∀ (i : Instr) (s t : State),
    (∃ b, i = .wrMask b ∨ i = .wrReq b ∨ i = .wrCmd b ∨ (∃ c, i = .wrPage c b ∨ i = .wrMode c b)) →
    exec i s = .next t → exec i t = .next t

/-- 30_encoding.md sections 4 and 7 (R71, R76): the three operations of `LD_ADDR C, w` and of `LD_WC C, w`, fed to the
machine as event words, leave the whole 16-bit value in the base and the current register, whatever `BFF` was. When the
writes are allowed is decision D17, that `BPTR[C]` is cleared decision D12, the sequences decision D27. -/
def Obligations.LoadSequences : Prop :=
  ∀ (s : State) (c : Chan) (w : Word) (rest : List Input),
    s.cfg.portMap.oneToOne = true → MayProgram s c →
    (s.inputs = inputsOf s.cfg.portMap (ldAddr c w) ++ rest → ∃ t, Runs 3 s t ∧
      t.chan c = { s.chan c with abase := w, acur := w, bptr := 0x0000#16 } ∧ SameOtherChannels c s t ∧
      t.dmac = { s.dmac with chans := t.dmac.chans, bff := false } ∧
      SameSurroundings { s with inputs := rest } t ∧ t.trace = s.trace) ∧
    (s.inputs = inputsOf s.cfg.portMap (ldWc c w) ++ rest → ∃ t, Runs 3 s t ∧
      t.chan c = { s.chan c with wbase := w, wcur := w, bptr := 0x0000#16 } ∧ SameOtherChannels c s t ∧
      t.dmac = { s.dmac with chans := t.dmac.chans, bff := false } ∧
      SameSurroundings { s with inputs := rest } t ∧ t.trace = s.trace)

/-- 30_encoding.md sections 4 and 7 (R71, R76): the three operations of `GET_ADDR C` and of `GET_WC C` return the low byte
and then the high byte of the current register and leave `BFF` clear; the sequences are decision D27. -/
def Obligations.GetSequences : Prop :=
  ∀ (s : State) (c : Chan) (rest : List Input), s.cfg.portMap.oneToOne = true →
    (s.inputs = inputsOf s.cfg.portMap (getAddr c) ++ rest → ∃ (t : State) (lo hi : Byte), Runs 3 s t ∧
      t.trace = s.trace ++ [.portRead lo, .portRead hi] ∧ hi.toNat * 256 + lo.toNat = (s.chan c).acur.toNat ∧
      t.dmac = { s.dmac with bff := false } ∧ SameSurroundings { s with inputs := rest } t) ∧
    (s.inputs = inputsOf s.cfg.portMap (getWc c) ++ rest → ∃ (t : State) (lo hi : Byte), Runs 3 s t ∧
      t.trace = s.trace ++ [.portRead lo, .portRead hi] ∧ hi.toNat * 256 + lo.toNat = (s.chan c).wcur.toNat ∧
      t.dmac = { s.dmac with bff := false } ∧ SameSurroundings { s with inputs := rest } t)

/-! ### The address translator -/

/-- 42_address_translator.md (R120 to R122, decision D19): the page above the 16-bit address, which moves by the offset in
the channel's direction and wraps inside the page. -/
def Obligations.PhysIsPageAboveAddress : Prop :=
  ∀ (s : State) (c : Chan) (off : Word),
    (s.phys c off).toNat = (s.chan c).page.toNat * 65536 + addressAfter (s.chan c) off.toNat

/-! ### The tick -/

/-- R154, whole: a tick at which no channel is eligible changes nothing; the same of a tick of a disabled controller
(44_service_scheduler.md section 1, R151). Where the enable bit stands is decision D5. -/
def Obligations.TickWithoutService : Prop :=
  ∀ (s : State) (q : Nibble),
    s.dmac.cmd.getLsbD 2 = false ∨ (∀ c, ¬ EligibleAt s q c) → exec (.tick q) s = .next s

/-- 44_service_scheduler.md section 1 (R152, R153; decisions D9, D14): an enabled tick sets the request flag of every
eligible channel, selected or not, and leaves the others' as they were. -/
def Obligations.RequestFlagsOfATick : Prop :=
  ∀ (s t : State) (q : Nibble), s.dmac.cmd.getLsbD 2 = true → exec (.tick q) s = .next t →
    ∀ c : Chan, t.dmac.status.getLsbD (4 + c.val) = true ↔
      (s.dmac.status.getLsbD (4 + c.val) = true ∨ EligibleAt s q c)

/-- R155, whole: under the fixed policy the least eligible channel is selected, so that a channel is passed over for as long
as a lower-numbered one is eligible, and none is selected when none is eligible. Where the policy bit stands is decision
D5. -/
def Obligations.FixedPriority : Prop :=
  ∀ (s : State) (q : Nibble), s.dmac.cmd.getLsbD 4 = false →
    (∀ c, s.selectAt q = some c ↔ EligibleAt s q c ∧ ∀ d, d < c → ¬ EligibleAt s q d) ∧
    (s.selectAt q = none ↔ ∀ c, ¬ EligibleAt s q c)

/-- 44_service_scheduler.md section 2 (R156, decision D14): under the rotating policy the eligible channel that comes first
in the order `LAST+1`, `LAST+2`, `LAST+3`, `LAST` (modulo 4) is selected. -/
def Obligations.RotatingPriority : Prop :=
  ∀ (s : State) (q : Nibble) (c : Chan), s.dmac.cmd.getLsbD 4 = true →
    (s.selectAt q = some c ↔ EligibleAt s q c ∧ ∀ d, EligibleAt s q d →
      (c.val + 7 - s.dmac.last.val) % 4 ≤ (d.val + 7 - s.dmac.last.val) % 4)

/-- 43_transfer_engine.md section 1 (R132) with 44_service_scheduler.md (R150) and 60_exceptions.md: a tick ends in a fault
exactly when the selected channel has no card, a reserved transfer type or the cascade mode, checked in that order
(decisions D15, D16, D23, D26, D21); otherwise it answers a state. -/
def Obligations.TickFaultsExactly : Prop :=
  ∀ (s : State) (q : Nibble),
    (∀ f, exec (.tick q) s = .fault f ↔
      s.dmac.cmd.getLsbD 2 = true ∧ ∃ c, s.selectAt q = some c ∧
        ((s.cfg.cards[c] = none ∧ f = .noCard c ∧ f.code = 7) ∨
         (s.cfg.cards[c] ≠ none ∧ (s.chan c).mode.extractLsb' 2 2 = 0b11#2 ∧ f = .reservedType c (s.chan c).mode ∧
            f.code = 3) ∨
         (s.cfg.cards[c] ≠ none ∧ (s.chan c).mode.extractLsb' 2 2 ≠ 0b11#2 ∧
            (s.chan c).mode.extractLsb' 6 2 = 0b11#2 ∧ f = .cascade c (s.chan c).mode ∧ f.code = 4))) ∧
    ((∀ f, exec (.tick q) s ≠ .fault f) → ∃ t, exec (.tick q) s = .next t)

/-- 43_transfer_engine.md section 2 (R133) and 20_memory.md section 7 (R58), a read transfer: the byte at `Phys(C, 0)` goes
unchanged to the card, which sees the byte pointer before it moves; memory stays; completion follows at a terminal count.
The byte pointer is decision D12, the layout of the mode decision D3. -/
def Obligations.ReadTransferTick : Prop :=
  ∀ (s : State) (q : Nibble) (c : Chan), Services s q c → (s.chan c).mode.extractLsb' 2 2 = 0b10#2 →
    ∃ t : State, exec (.tick q) s = .next t ∧
      t.trace = s.trace ++
        [.memRead (s.phys c 0#16) (s.byteAt (s.phys c 0#16)), .devPut c (s.chan c).bptr (s.byteAt (s.phys c 0#16))] ++
        completion (s.chan c).wcur c (t.chan c).bptr ∧
      ((s.chan c).wcur ≠ 0x0000#16 ∨ autoBit (s.chan c) = false →
        (t.chan c).bptr.toNat = ((s.chan c).bptr.toNat + 1) % 65536) ∧
      SameSurroundings s t

/-- 43_transfer_engine.md section 2 (R133) and 20_memory.md section 7 (R58), a write transfer: the card's next byte (the head
of its supply; a free value when the supply has run out, log entry 2) is stored unchanged at `Phys(C, 0)` and nowhere else.
The byte pointer is decision D12, the layout of the mode decision D3. -/
def Obligations.WriteTransferTick : Prop :=
  ∀ (s : State) (q : Nibble) (c : Chan), s.mem.wf = true → Services s q c →
    (s.chan c).mode.extractLsb' 2 2 = 0b01#2 →
    ∃ (t : State) (v : Byte), exec (.tick q) s = .next t ∧
      (∀ w more, s.supply[c] = w :: more → v = w ∧ t.supply = s.supply.set c more) ∧
      (s.supply[c] = [] → t.supply = s.supply) ∧
      t.trace = s.trace ++ [.devGet c (s.chan c).bptr v, .memWrite (s.phys c 0#16) v] ++
        completion (s.chan c).wcur c (t.chan c).bptr ∧
      ((s.chan c).wcur ≠ 0x0000#16 ∨ autoBit (s.chan c) = false →
        (t.chan c).bptr.toNat = ((s.chan c).bptr.toNat + 1) % 65536) ∧
      t.byteAt (s.phys c 0#16) = v ∧ (∀ a, a ≠ s.phys c 0#16 → t.byteAt a = s.byteAt a) ∧
      t.cfg = s.cfg ∧ t.inputs = s.inputs

/-- 43_transfer_engine.md section 2 (R133, R134), a verify transfer: no memory access, no card byte, the byte pointer left
alone; the completion as for the other types. The byte pointer is decision D12, the layout of the mode decision D3. -/
def Obligations.VerifyTransferTick : Prop :=
  ∀ (s : State) (q : Nibble) (c : Chan), Services s q c → (s.chan c).mode.extractLsb' 2 2 = 0b00#2 →
    ∃ t : State, exec (.tick q) s = .next t ∧
      t.trace = s.trace ++ completion (s.chan c).wcur c (t.chan c).bptr ∧
      ((s.chan c).wcur ≠ 0x0000#16 ∨ autoBit (s.chan c) = false → (t.chan c).bptr = (s.chan c).bptr) ∧
      SameSurroundings s t

/-- R136, whole, with the address of 43_transfer_engine.md section 2 (R135) beside it: on every step of every transfer type
action 4 takes one from the count and the address moves by one in its direction, modulo 2^16, which is what the step leaves
unless it is a terminal count with autoinitialize (the reload comes after action 4); base registers, mode and page do not
change. Where the bits of the mode stand is decision D3. -/
def Obligations.TickCountsAndSteps : Prop :=
  ∀ (s : State) (q : Nibble) (c : Chan), Services s q c →
    ∃ t : State, exec (.tick q) s = .next t ∧
      (t.chan c).wbase = (s.chan c).wbase ∧ (t.chan c).abase = (s.chan c).abase ∧
      (t.chan c).mode = (s.chan c).mode ∧ (t.chan c).page = (s.chan c).page ∧
      ((s.chan c).wcur ≠ 0x0000#16 ∨ autoBit (s.chan c) = false →
        (t.chan c).wcur.toNat = ((s.chan c).wcur.toNat + 65535) % 65536 ∧
        (t.chan c).acur.toNat = addressAfter (s.chan c) 1) ∧
      ((s.countDown c).chan c).wcur.toNat = ((s.chan c).wcur.toNat + 65535) % 65536 ∧
      ((s.countDown c).chan c).wbase = (s.chan c).wbase

/-- 43_transfer_engine.md section 2 (R139): at a terminal count without autoinitialize the channel is masked and flagged, the current registers keep
the values of actions 3 and 4 and the byte pointer that of action 2, and the channel is idle: while it is masked no tick
steps it, only a mask write unmasks it, and a status read returns the flag once and clears it. What action 2 makes of the
byte pointer is decision D12, that a masked channel is idle decision D17; where the bits of the mode and of `STATUS` stand
is decisions D3 and D8. -/
def Obligations.PlainTerminalCount : Prop :=
  ∀ (s : State) (q : Nibble) (c : Chan), Services s q c → (s.chan c).wcur = 0x0000#16 → autoBit (s.chan c) = false →
    ∃ t : State, exec (.tick q) s = .next t ∧
      t.dmac.mask.getLsbD c.val = true ∧ t.dmac.status.getLsbD c.val = true ∧ t.phase c = .idle ∧
      (t.chan c).wcur = 0xFFFF#16 ∧ (t.chan c).acur.toNat = addressAfter (s.chan c) 1 ∧
      (t.chan c).bptr = ((s.moveUnit c).chan c).bptr ∧
      (∀ u v q', u.dmac.mask.getLsbD c.val = true → exec (.tick q') u = .next v →
        ¬ Services u q' c ∧ v.chan c = u.chan c) ∧
      (∀ u v i, u.dmac.mask.getLsbD c.val = true → exec i u = .next v → v.dmac.mask.getLsbD c.val = false →
        ∃ b, i = .wrMask b) ∧
      (∃ u, exec .rdStatus t = .next u ∧ u.trace = t.trace ++ [.portRead t.dmac.status] ∧ u.dmac.status = 0x00#8)

/-- 43_transfer_engine.md section 2 (R138): at a terminal count with autoinitialize the current registers equal the base
registers, the channel stays armed, and its flag is set only if `TC_FLAG_ON_AUTOINIT` (decision D10); the byte pointer is
cleared (decision D12); that an unmasked channel is armed is decision D17. -/
def Obligations.AutoinitializeTerminalCount : Prop :=
  ∀ (s : State) (q : Nibble) (c : Chan), Services s q c → (s.chan c).wcur = 0x0000#16 → autoBit (s.chan c) = true →
    ∃ t : State, exec (.tick q) s = .next t ∧
      (t.chan c).acur = (s.chan c).abase ∧ (t.chan c).wcur = (s.chan c).wbase ∧ (t.chan c).bptr = 0x0000#16 ∧
      t.dmac.mask = s.dmac.mask ∧ t.phase c = .armed ∧
      (t.dmac.status.getLsbD c.val = true ↔ (s.cfg.tcFlagOnAutoinit = true ∨ s.dmac.status.getLsbD c.val = true))

/-- 43_transfer_engine.md section 2 (R140, decision D11): every terminal count withdraws the channel's software request; no
other step does. -/
def Obligations.RequestBitAtTerminalCount : Prop :=
  ∀ (s : State) (q : Nibble) (c : Chan), Services s q c →
    ∃ t : State, exec (.tick q) s = .next t ∧
      ((s.chan c).wcur = 0x0000#16 → t.dmac.req.getLsbD c.val = false ∧
        ∀ d, d ≠ c → t.dmac.req.getLsbD d.val = s.dmac.req.getLsbD d.val) ∧
      ((s.chan c).wcur ≠ 0x0000#16 → t.dmac.req = s.dmac.req)

/-- The frame of a servicing tick (43_transfer_engine.md section 1, R130; 44_service_scheduler.md R157, R158): nothing of
another channel, neither `CMD` nor `BFF`; `LAST` becomes the serviced channel under either policy (decision D14); short of a
terminal count neither `MASK` nor a terminal-count flag changes. -/
def Obligations.TickLeavesOtherChannels : Prop :=
  ∀ (s : State) (q : Nibble) (c : Chan), Services s q c →
    ∃ t : State, exec (.tick q) s = .next t ∧ SameOtherChannels c s t ∧
      t.dmac.cmd = s.dmac.cmd ∧ t.dmac.bff = s.dmac.bff ∧ t.dmac.last = c ∧
      (∀ d, d ≠ c → t.dmac.mask.getLsbD d.val = s.dmac.mask.getLsbD d.val ∧
        t.dmac.status.getLsbD d.val = s.dmac.status.getLsbD d.val) ∧
      ((s.chan c).wcur ≠ 0x0000#16 →
        t.dmac.mask = s.dmac.mask ∧ t.dmac.status.getLsbD c.val = s.dmac.status.getLsbD c.val) ∧
      t.cfg = s.cfg ∧ t.inputs = s.inputs

/-! ### The whole machine -/

/-- 20_memory.md section 2 (R45): the only operation that changes a byte of main memory is a tick that services a write
transfer, and the byte is the one at `Phys(C, 0)`. -/
def Obligations.OnlyWriteTransfersStore : Prop :=
  ∀ (i : Instr) (s t : State) (a : PhysAddr), exec i s = .next t → t.byteAt a ≠ s.byteAt a →
    ∃ q c, i = .tick q ∧ Services s q c ∧ (s.chan c).mode.extractLsb' 2 2 = 0b01#2 ∧ a = s.phys c 0#16

/-- R16, whole: the current registers of a channel are changed only by the Transfer Engine servicing that channel, by a
write to the port that loads their base register, which also resets the current value, and by reset. Where the bits that
`Services` reads stand is decisions D3 and D5. -/
def Obligations.CurrentRegisterWriters : Prop :=
  ∀ (i : Instr) (s t : State) (c : Chan), exec i s = .next t →
    ((t.chan c).acur ≠ (s.chan c).acur →
      (∃ b, i = .wrAddr c b) ∨ i = .reset ∨ ∃ q, i = .tick q ∧ Services s q c) ∧
    ((t.chan c).wcur ≠ (s.chan c).wcur →
      (∃ b, i = .wrWc c b) ∨ i = .reset ∨ ∃ q, i = .tick q ∧ Services s q c) ∧
    (∀ b, i = .wrAddr c b → (t.chan c).acur = (t.chan c).abase) ∧
    (∀ b, i = .wrWc c b → (t.chan c).wcur = (t.chan c).wbase)

/-- 10_state.md section 7 (R36), the columns "Port write" and "HW writes": what changes each of the other registers. The
writers of `BPTR[C]` are decision D12, the clearing of `REQ[C]` decision D11, when `LAST` changes decision D14. -/
def Obligations.RegisterWriters : Prop :=
  ∀ (i : Instr) (s t : State), exec i s = .next t → i ≠ .reset →
    (∀ c, (t.chan c).mode ≠ (s.chan c).mode → ∃ b, i = .wrMode c b) ∧
    (∀ c, (t.chan c).page ≠ (s.chan c).page → ∃ b, i = .wrPage c b) ∧
    (∀ c, (t.chan c).abase ≠ (s.chan c).abase → ∃ b, i = .wrAddr c b) ∧
    (∀ c, (t.chan c).wbase ≠ (s.chan c).wbase → ∃ b, i = .wrWc c b) ∧
    (∀ c, (t.chan c).bptr ≠ (s.chan c).bptr →
      (∃ b, i = .wrAddr c b ∨ i = .wrWc c b) ∨ ∃ q, i = .tick q ∧ Services s q c) ∧
    (t.dmac.cmd ≠ s.dmac.cmd → ∃ b, i = .wrCmd b) ∧
    (∀ c : Chan, t.dmac.req.getLsbD c.val ≠ s.dmac.req.getLsbD c.val →
      (∃ b, i = .wrReq b) ∨ ∃ q, i = .tick q ∧ Services s q c ∧ (s.chan c).wcur = 0x0000#16) ∧
    (∀ c : Chan, t.dmac.mask.getLsbD c.val ≠ s.dmac.mask.getLsbD c.val →
      (∃ b, i = .wrMask b) ∨
      ∃ q, i = .tick q ∧ Services s q c ∧ (s.chan c).wcur = 0x0000#16 ∧ autoBit (s.chan c) = false) ∧
    (t.dmac.status ≠ s.dmac.status → i = .rdStatus ∨ ∃ q, i = .tick q) ∧
    (t.dmac.bff ≠ s.dmac.bff →
      (∃ c, i = .rdAddr c ∨ i = .rdWc c) ∨ (∃ c b, i = .wrAddr c b ∨ i = .wrWc c b) ∨ ∃ b, i = .wrClrff b) ∧
    (t.dmac.last ≠ s.dmac.last → ∃ q, i = .tick q ∧ Services s q t.dmac.last)

/-- 10_state.md section 4 (R25) and 45_card_interface.md (R170): no step changes the card bindings or any other part of the
configuration. -/
def Obligations.ConfigurationNeverChanges : Prop :=
  ∀ s t : State, step s = .next t → t.cfg = s.cfg

/-- 43_transfer_engine.md section 2 (R141): a channel's completion is signalled exactly once in each step that is a terminal
count of it, and by no other operation: not by masking it, not by reset. -/
def Obligations.CompletionExactlyAtTerminalCount : Prop :=
  ∀ (i : Instr) (s t : State) (c : Chan), exec i s = .next t →
    ((∃ q, i = .tick q ∧ Services s q c ∧ (s.chan c).wcur = 0x0000#16) →
      completions c t.trace = completions c s.trace + 1) ∧
    (¬ (∃ q, i = .tick q ∧ Services s q c ∧ (s.chan c).wcur = 0x0000#16) →
      completions c t.trace = completions c s.trace)

/-- 44_service_scheduler.md section 3 (R152, R159): over any run of ticks, with any request lines, a channel that is masked
at the start keeps every register, stays masked, keeps its software request, gets no byte and is not told of completion. -/
def Obligations.MaskedChannelStandsStill : Prop :=
  ∀ (qs : List Nibble) (s t : State) (c : Chan) (rest : List Input),
    s.cfg.portMap.oneToOne = true → s.dmac.mask.getLsbD c.val = true →
    s.inputs = ticks s.cfg.portMap qs ++ rest → Runs qs.length s t →
    t.chan c = s.chan c ∧ t.dmac.mask.getLsbD c.val = true ∧
      t.dmac.req.getLsbD c.val = s.dmac.req.getLsbD c.val ∧ t.supply[c] = s.supply[c] ∧
      putBytes c t.trace = putBytes c s.trace ∧ completions c t.trace = completions c s.trace

/-- 43_transfer_engine.md section 3 (R144, decision D25) and R66 (decision D4): a tick does the same whatever the transfer
mode (cascade apart) and the two unused bits of any channel's mode are. -/
def Obligations.TransferModeIgnored : Prop :=
  ∀ (s t : State) (q : Nibble) (c : Chan) (m : Byte),
    m.extractLsb' 2 4 = (s.chan c).mode.extractLsb' 2 4 → m.extractLsb' 6 2 ≠ 0b11#2 →
    exec (.tick q) s = .next t →
    exec (.tick q) (s.setChan c { s.chan c with mode := m }) = .next (t.setChan c { t.chan c with mode := m })

/-- 10_state.md section 2 (R17, decision D6) and 30_encoding.md section 3 (R67, decision D5): a tick does the same whatever
the bits of `CMD` other than enable and priority policy are, the memory-to-memory bit among them (log entry 9). -/
def Obligations.UnnamedCommandBitsIgnored : Prop :=
  ∀ (s t : State) (q : Nibble) (b : Byte),
    b.getLsbD 2 = s.dmac.cmd.getLsbD 2 → b.getLsbD 4 = s.dmac.cmd.getLsbD 4 →
    exec (.tick q) s = .next t → exec (.tick q) (s.setCmd b) = .next (t.setCmd b)

/-- 60_exceptions.md section 1 (R180: "No other condition is a fault."): every fault an operation ends in is one of the
table's, raised by the operation the table names and under its condition; no operation is refused. The codes and the
conditions are decisions D15 to D18, D21, D23. -/
def Obligations.OnlyListedFaults : Prop :=
  ∀ (i : Instr) (s : State),
    (∀ r, exec i s ≠ .refused r) ∧
    (∀ c off b, exec i s = .fault (.programWhileArmed c off b) →
      s.cfg.strict = true ∧ s.dmac.mask.getLsbD c.val = false ∧ (i = .wrAddr c b ∨ i = .wrWc c b ∨ i = .wrMode c b)) ∧
    (∀ c b, exec i s = .fault (.requestMasked c b) →
      s.cfg.strict = true ∧ i = .wrReq b ∧ b.getLsbD c.val = true ∧ s.dmac.req.getLsbD c.val = false ∧
        s.dmac.mask.getLsbD c.val = true) ∧
    (∀ c m, exec i s = .fault (.reservedType c m) →
      (∃ q, i = .tick q ∧ s.selectAt q = some c) ∧ m = (s.chan c).mode ∧ m.extractLsb' 2 2 = 0b11#2) ∧
    (∀ c m, exec i s = .fault (.cascade c m) →
      (∃ q, i = .tick q ∧ s.selectAt q = some c) ∧ m = (s.chan c).mode ∧ m.extractLsb' 6 2 = 0b11#2) ∧
    (∀ c, exec i s = .fault (.noCard c) → (∃ q, i = .tick q ∧ s.selectAt q = some c) ∧ s.cfg.cards[c] = none) ∧
    (∀ off w, exec i s ≠ .fault (.portContract off w)) ∧ (∀ w, exec i s ≠ .fault (.badEvent w))

/-! ### Progress -/

/-- 43_transfer_engine.md section 3 (R143): `n` ticks that service one channel, `n` at most its count, leave
`WCUR - n` and `ACUR ± n`, signal no completion and change no other channel. Stated from the current values; a channel just
loaded has them equal to its base values. Where the direction bit stands is decision D3. Steps with anything between them
are `ProgressInAnyRun`. -/
def Obligations.ProgressLaw : Prop :=
  ∀ (n : Nat) (s : State) (c : Chan) (q : Nibble) (rest : List Input),
    s.cfg.portMap.oneToOne = true → s.dmac.cmd.getLsbD 2 = true → OnlyEligible s q c → Admitted s c →
    s.inputs = ticks s.cfg.portMap (List.replicate n q) ++ rest → n ≤ (s.chan c).wcur.toNat →
    ∃ t : State, Runs n s t ∧
      (t.chan c).wcur.toNat = (s.chan c).wcur.toNat - n ∧ (t.chan c).acur.toNat = addressAfter (s.chan c) n ∧
      (t.chan c).abase = (s.chan c).abase ∧ (t.chan c).wbase = (s.chan c).wbase ∧
      (t.chan c).mode = (s.chan c).mode ∧ (t.chan c).page = (s.chan c).page ∧
      SameOtherChannels c s t ∧ t.dmac.mask = s.dmac.mask ∧ t.dmac.req = s.dmac.req ∧ t.inputs = rest ∧
      completions c t.trace = completions c s.trace

/-- 43_transfer_engine.md section 3 (R142): a channel whose count is `n` reaches terminal count in its `(n + 1)`-th step and
not before; then it is masked and flagged, or reloaded and still armed. That the request bit is withdrawn is decision
D11, where the bits of the mode stand decision D3. Steps with anything between them are `TerminalCountInAnyRun`. -/
def Obligations.TerminalCountAfterProgrammedLength : Prop :=
  ∀ (s : State) (c : Chan) (q : Nibble) (rest : List Input),
    s.cfg.portMap.oneToOne = true → s.dmac.cmd.getLsbD 2 = true → OnlyEligible s q c → Admitted s c →
    s.inputs = ticks s.cfg.portMap (List.replicate ((s.chan c).wcur.toNat + 1) q) ++ rest →
    (∀ k, k ≤ (s.chan c).wcur.toNat → ∃ u, Runs k s u ∧ completions c u.trace = completions c s.trace ∧
      u.dmac.mask = s.dmac.mask) ∧
    ∃ t : State, Runs ((s.chan c).wcur.toNat + 1) s t ∧ t.inputs = rest ∧
      completions c t.trace = completions c s.trace + 1 ∧ t.dmac.req.getLsbD c.val = false ∧
      (autoBit (s.chan c) = false → t.dmac.mask.getLsbD c.val = true ∧ t.dmac.status.getLsbD c.val = true ∧
        (t.chan c).wcur = 0xFFFF#16 ∧
        (t.chan c).acur.toNat = addressAfter (s.chan c) ((s.chan c).wcur.toNat + 1)) ∧
      (autoBit (s.chan c) = true → t.dmac.mask.getLsbD c.val = false ∧ (t.chan c).wcur = (s.chan c).wbase ∧
        (t.chan c).acur = (s.chan c).abase)

/-- 20_memory.md section 3 (R47) and 42_address_translator.md (R120): unit `i` of a write transfer is the card's byte `i` and
goes to the address `Phys(C, i)` of the start, up to and including the terminal count; no other byte of memory changes.
The layout of the mode is decision D3, the page's place decision D19. Units with anything between them, page writes too,
are `ProgressInAnyRun`. -/
def Obligations.WriteBlockLandsInPage : Prop :=
  ∀ (bytes : List Byte) (s : State) (c : Chan) (q : Nibble) (more : List Byte) (rest : List Input),
    s.mem.wf = true → s.cfg.portMap.oneToOne = true → s.dmac.cmd.getLsbD 2 = true → OnlyEligible s q c →
    Admitted s c → (s.chan c).mode.extractLsb' 2 2 = 0b01#2 →
    s.supply[c] = bytes ++ more → bytes.length ≤ (s.chan c).wcur.toNat + 1 →
    s.inputs = ticks s.cfg.portMap (List.replicate bytes.length q) ++ rest →
    ∃ t : State, Runs bytes.length s t ∧ t.supply[c] = more ∧
      (∀ i, ∀ h : i < bytes.length, t.byteAt (s.phys c (BitVec.ofNat 16 i)) = bytes[i]) ∧
      (∀ a, (∀ i, i < bytes.length → a ≠ s.phys c (BitVec.ofNat 16 i)) → t.byteAt a = s.byteAt a)

/-- 20_memory.md section 3 (R47) and 42_address_translator.md (R120): the bytes a read transfer gives the card are those at
`Phys(C, 0)`, `Phys(C, 1)`, … of the start, in order, up to and including the terminal count; memory does not change.
The layout of the mode is decision D3, the page's place decision D19. Units with anything between them, page writes too,
are `ProgressInAnyRun`. -/
def Obligations.ReadBlockGivesCardMemory : Prop :=
  ∀ (n : Nat) (s : State) (c : Chan) (q : Nibble) (rest : List Input),
    s.cfg.portMap.oneToOne = true → s.dmac.cmd.getLsbD 2 = true → OnlyEligible s q c → Admitted s c →
    (s.chan c).mode.extractLsb' 2 2 = 0b10#2 → n ≤ (s.chan c).wcur.toNat + 1 →
    s.inputs = ticks s.cfg.portMap (List.replicate n q) ++ rest →
    ∃ t : State, Runs n s t ∧ (∀ a, t.byteAt a = s.byteAt a) ∧
      putBytes c t.trace = putBytes c s.trace ++
        (List.range n).map fun i => s.byteAt (s.phys c (BitVec.ofNat 16 i))

/-- 44_service_scheduler.md section 3 (R160): under rotating priority an armed channel that requests at four ticks in a row,
by its line or by its software bit, is serviced at one of them, whatever the other channels do. (The software bit falls
without a write only when the channel is serviced, decision D11.) The full rotating order is decision D14. -/
def Obligations.RotationIsFair : Prop :=
  ∀ (s t : State) (c : Chan) (q : Nat → Nibble) (rest : List Input),
    s.cfg.portMap.oneToOne = true → s.dmac.cmd.getLsbD 2 = true → s.dmac.cmd.getLsbD 4 = true →
    s.dmac.mask.getLsbD c.val = false →
    (∀ k, k < 4 → lineOf (q k) c = true ∨ s.dmac.req.getLsbD c.val = true) →
    s.inputs = ticks s.cfg.portMap [q 0, q 1, q 2, q 3] ++ rest → Runs 4 s t →
    ∃ k u, k < 4 ∧ Runs k s u ∧ Services u (q k) c

/-! ### The invariant and reset -/

/-- Every step keeps the invariant: the canonical form of memory, the one-to-one port map, and that a terminal-count flag
stands only where the channel's completion has been signalled (43_transfer_engine.md section 2). -/
def Obligations.InvariantKeptByStep : Prop :=
  ∀ s t : State, MachineInv s → step s = .next t → MachineInv t

/-- The machine after reset meets the invariant. -/
def Obligations.InvariantAtReset : Prop := MachineInv State.reset

/-- 70_reset_and_hazards.md section 1 (R210, R211): from any state reset gives every register its reset value and leaves
memory, cards and bindings alone, signalling nothing. The values of the channel registers, `REQ` and `LAST` are decision
D13, that a masked channel is idle decision D17; the source gives the values of `MASK`, `BFF`, `CMD` and `STATUS`. -/
def Obligations.ResetOperation : Prop :=
  ∀ s : State, ∃ t : State, exec .reset s = .next t ∧
    t.dmac.mask = 0b1111#4 ∧ t.dmac.bff = false ∧ t.dmac.cmd = 0x00#8 ∧ t.dmac.status = 0x00#8 ∧
    t.dmac.req = 0b0000#4 ∧ t.dmac.last.val = 3 ∧
    (∀ c, (t.chan c).mode = 0x00#8 ∧ (t.chan c).page = 0x00#8 ∧ (t.chan c).abase = 0x0000#16 ∧ (t.chan c).acur = 0x0000#16 ∧
      (t.chan c).wbase = 0x0000#16 ∧ (t.chan c).wcur = 0x0000#16 ∧ (t.chan c).bptr = 0x0000#16 ∧ t.phase c = .idle) ∧
    SameSurroundings s t ∧ t.trace = s.trace

/-- 10_state.md section 6 (R33): the state after reset, and that the reset operation run in it changes nothing. The values
of the channel registers, `REQ` and `LAST` are decision D13, that a masked channel is idle decision D17;
`STRICT_PRECONDITIONS`, `TC_FLAG_ON_AUTOINIT` and `PORT_MAP` are the defaults of R4 (decisions D17, D10, D1). The port base, the
card on every channel and the empty memory are the model's (log entries 5 and 3). -/
def Obligations.StateAfterReset : Prop :=
  State.reset.dmac.mask = 0b1111#4 ∧ State.reset.dmac.bff = false ∧ State.reset.dmac.cmd = 0x00#8 ∧
  State.reset.dmac.status = 0x00#8 ∧ State.reset.dmac.req = 0b0000#4 ∧ State.reset.dmac.last.val = 3 ∧
  exec .reset State.reset = .next State.reset ∧
  State.reset.cfg.strict = true ∧ State.reset.cfg.tcFlagOnAutoinit = false ∧
  State.reset.cfg.portMap = PortMap.default ∧ State.reset.cfg.portBase = 0 ∧
  (∀ c : Chan, State.reset.cfg.cards[c] = some ⟨0⟩) ∧ State.reset.mem = [] ∧
  ∀ c, State.reset.phase c = .idle

/-! ### Runs in which anything else may happen between a channel's steps -/

/-- 43_transfer_engine.md section 3 (R143) and 20_memory.md section 3 (R47): after `n` steps of a channel, `n` at most its
count, with anything between them that does not reprogram it, the count is `WCUR - n`, the address `ACUR ± n`, and no
completion of it has been signalled; and its next unit, number `n`, moves its byte at that address in the page the channel
has then. Where the bits of the mode stand is decision D3, the byte pointer decision D12, the page's place decision D19; a
written byte is the head of the card's supply, or a free value (log entry 2). -/
def Obligations.ProgressInAnyRun : Prop :=
  ∀ (c : Chan) (n : Nat) (s t : State), TransferRun c n s t → n ≤ (s.chan c).wcur.toNat →
    (t.chan c).wcur.toNat = (s.chan c).wcur.toNat - n ∧ (t.chan c).acur.toNat = addressAfter (s.chan c) n ∧
    (t.chan c).abase = (s.chan c).abase ∧ (t.chan c).wbase = (s.chan c).wbase ∧ (t.chan c).mode = (s.chan c).mode ∧
    completions c t.trace = completions c s.trace ∧
    ∀ q, Services t q c → ∃ (u : State) (a : PhysAddr), exec (.tick q) t = .next u ∧
      a.toNat = (t.chan c).page.toNat * 65536 + addressAfter (s.chan c) n ∧
      ((s.chan c).mode.extractLsb' 2 2 = 0b10#2 →
        u.trace = t.trace ++ [.memRead a (t.byteAt a), .devPut c (t.chan c).bptr (t.byteAt a)] ++
          completion (t.chan c).wcur c (u.chan c).bptr) ∧
      ((s.chan c).mode.extractLsb' 2 2 = 0b01#2 → ∃ v, (∀ w more, t.supply[c] = w :: more → v = w) ∧
        u.trace = t.trace ++ [.devGet c (t.chan c).bptr v, .memWrite a v] ++
          completion (t.chan c).wcur c (u.chan c).bptr)

/-- 43_transfer_engine.md sections 2 and 3 (R138, R139, R142): over a run with exactly one step more than the count of the
channel, with anything between the steps and after the last that does not reprogram it, the completion has been signalled
once, and the registers are those of a plain terminal count or, with autoinitialize, the base values. Where the bits of the
mode stand is decision D3. -/
def Obligations.TerminalCountInAnyRun : Prop :=
  ∀ (c : Chan) (s t : State), TransferRun c ((s.chan c).wcur.toNat + 1) s t →
    completions c t.trace = completions c s.trace + 1 ∧
    (t.chan c).abase = (s.chan c).abase ∧ (t.chan c).wbase = (s.chan c).wbase ∧
    (autoBit (s.chan c) = false → (t.chan c).wcur = 0xFFFF#16 ∧
      (t.chan c).acur.toNat = addressAfter (s.chan c) ((s.chan c).wcur.toNat + 1)) ∧
    (autoBit (s.chan c) = true → (t.chan c).wcur = (s.chan c).wbase ∧ (t.chan c).acur = (s.chan c).abase)
end

