-- ==== Sys2Proof/Laws/Decode.lean ====
section
/-! SUPPORT. The laws of the port map and of the event-word fields (30_encoding.md R61 to R65), from which the round trip of
the decoder and the encoder follows instruction by instruction. -/

namespace Sys2Proof

/-- Every port is listed. -/
theorem Port.mem_all (p : Port) : p ∈ Port.all := by
  cases p with
  | chan c k => revert c; cases k <;> decide
  | _ => decide

/-- A one-to-one port map gives different ports different offsets (R61). -/
theorem PortMap.offsetOf_injective {pm : PortMap} (h : pm.oneToOne = true) {p r : Port}
    (e : pm.offsetOf p = pm.offsetOf r) : p = r :=
  List.inj_on_of_nodup_map (by simpa [PortMap.oneToOne] using h) p.mem_all r.mem_all e

/-- The port found at an offset has that offset. -/
theorem PortMap.offsetOf_of_portAt {pm : PortMap} {off : PortOffset} {p : Port} (h : pm.portAt off = some p) :
    pm.offsetOf p = off := by
  simpa using List.find?_some h

/-- A one-to-one port map finds each port at its own offset. -/
theorem PortMap.portAt_offsetOf {pm : PortMap} (h : pm.oneToOne = true) (p : Port) :
    pm.portAt (pm.offsetOf p) = some p := by
  cases hf : pm.portAt (pm.offsetOf p) with
  | none =>
    have := List.find?_eq_none.mp hf p p.mem_all
    simp at this
  | some r => rw [offsetOf_injective h (offsetOf_of_portAt hf)]

/-- The default port map is one-to-one (R61). -/
theorem PortMap.default_oneToOne : PortMap.default.oneToOne = true := by decide

/-- The number a port-access word is (R63: a write to offset `o` of datum `d` is `0x2000 + 0x100*o + d`). -/
theorem toNat_accessWord (w : Bool) (off : PortOffset) (d : Byte) :
    (accessWord w off d).toNat = w.toNat * 8192 + off.toNat * 256 + d.toNat := by
  have ho := off.isLt
  have hd := d.isLt
  unfold accessWord
  simp only [BitVec.toNat_append, BitVec.toNat_ofBool]
  rw [← Nat.shiftLeft_add_eq_or_of_lt hd, ← Nat.shiftLeft_add_eq_or_of_lt ho]
  cases w <;> simp [Nat.shiftLeft_eq]
  omega

/-- The numbers the four fields of an event word are (R62, R63). -/
theorem EventWord.toNat_kind (w : EventWord) : w.kind.toNat = w.toNat / 16384 := by
  have := w.isLt
  simp only [EventWord.kind, BitVec.extractLsb'_toNat, Nat.shiftRight_eq_div_pow]
  omega

theorem EventWord.toNat_off (w : EventWord) : w.off.toNat = w.toNat / 256 % 32 := by
  simp [EventWord.off, BitVec.extractLsb'_toNat, Nat.shiftRight_eq_div_pow]

theorem EventWord.toNat_data (w : EventWord) : w.data.toNat = w.toNat % 256 := by
  simp [EventWord.data, BitVec.extractLsb'_toNat]

theorem EventWord.isWrite_eq (w : EventWord) : w.isWrite = decide (w.toNat / 8192 % 2 = 1) := by
  simp [EventWord.isWrite, BitVec.getLsbD, Nat.testBit_eq_decide_div_mod_eq]

@[simp] theorem kind_accessWord (w : Bool) (off : PortOffset) (d : Byte) : (accessWord w off d).kind = 0b00#2 := by
  apply BitVec.eq_of_toNat_eq
  rw [EventWord.toNat_kind, toNat_accessWord]
  have ho := off.isLt
  have hd := d.isLt
  cases w <;> simp <;> omega

@[simp] theorem isWrite_accessWord (w : Bool) (off : PortOffset) (d : Byte) : (accessWord w off d).isWrite = w := by
  rw [EventWord.isWrite_eq, toNat_accessWord]
  have ho := off.isLt
  have hd := d.isLt
  cases w <;> simp <;> omega

@[simp] theorem off_accessWord (w : Bool) (off : PortOffset) (d : Byte) : (accessWord w off d).off = off := by
  apply BitVec.eq_of_toNat_eq
  rw [EventWord.toNat_off, toNat_accessWord]
  have ho := off.isLt
  have hd := d.isLt
  cases w <;> simp <;> omega

@[simp] theorem data_accessWord (w : Bool) (off : PortOffset) (d : Byte) : (accessWord w off d).data = d := by
  apply BitVec.eq_of_toNat_eq
  rw [EventWord.toNat_data, toNat_accessWord]
  have hd := d.isLt
  cases w <;> simp <;> omega

/-- A port-access word decodes as the port access of its fields (R63). -/
theorem decode_accessWord (pm : PortMap) (w : Bool) (off : PortOffset) (d : Byte) :
    decode pm (accessWord w off d) = decodeAccess pm off w d := by
  simp [decode]

/-- A port access at a port's own offset is that port's operation, or the rejection of R72. -/
theorem decodeAccess_offsetOf {pm : PortMap} (h : pm.oneToOne = true) (p : Port) (w : Bool) (d : Byte) :
    decodeAccess pm (pm.offsetOf p) w d =
      match (if w then p.writeInstr d else p.readInstr) with
      | some i => .instr i
      | none   => .reject (.portContract (pm.offsetOf p) w) := by
  cases hi : (if w then p.writeInstr d else p.readInstr) <;> simp [decodeAccess, PortMap.portAt_offsetOf h, hi]

/-- A word of kind 0 is the port-access word of its fields (R63). -/
theorem accessWord_of_fields {w : EventWord} (h : w.kind = 0b00#2) : accessWord w.isWrite w.off w.data = w := by
  apply BitVec.eq_of_toNat_eq
  have h0 := congrArg BitVec.toNat h
  rw [EventWord.toNat_kind] at h0
  simp only [BitVec.toNat_ofNat, Nat.zero_mod] at h0
  rw [toNat_accessWord, EventWord.toNat_off, EventWord.toNat_data, EventWord.isWrite_eq]
  by_cases hb : w.toNat / 8192 % 2 = 1 <;> simp [hb] <;> omega

/-- The tick word of R64 is `0x4000 + q`. -/
theorem toNat_tickWord (q : Nibble) : (tickWord q).toNat = 0x4000 + q.toNat := by
  revert q; decide

end Sys2Proof
end

