-- ==== Sys2Proof/Laws/State.lean ====
section
/-! SUPPORT. One lemma per field per update of State, each true by `rfl`, so that no later proof unfolds a record update. -/

namespace Sys2Proof.Machine.State

open Sys2Proof Sys2Proof.Machine

/-! #### `State.setChan` -/

@[simp] theorem setChan_cmd (s : State) (c : Chan) (ch : Channel) : (s.setChan c ch).dmac.cmd = s.dmac.cmd := rfl
@[simp] theorem setChan_req (s : State) (c : Chan) (ch : Channel) : (s.setChan c ch).dmac.req = s.dmac.req := rfl
@[simp] theorem setChan_mask (s : State) (c : Chan) (ch : Channel) : (s.setChan c ch).dmac.mask = s.dmac.mask := rfl
@[simp] theorem setChan_status (s : State) (c : Chan) (ch : Channel) : (s.setChan c ch).dmac.status = s.dmac.status := rfl
@[simp] theorem setChan_bff (s : State) (c : Chan) (ch : Channel) : (s.setChan c ch).dmac.bff = s.dmac.bff := rfl
@[simp] theorem setChan_last (s : State) (c : Chan) (ch : Channel) : (s.setChan c ch).dmac.last = s.dmac.last := rfl
@[simp] theorem setChan_mem (s : State) (c : Chan) (ch : Channel) : (s.setChan c ch).mem = s.mem := rfl
@[simp] theorem setChan_cfg (s : State) (c : Chan) (ch : Channel) : (s.setChan c ch).cfg = s.cfg := rfl
@[simp] theorem setChan_inputs (s : State) (c : Chan) (ch : Channel) : (s.setChan c ch).inputs = s.inputs := rfl
@[simp] theorem setChan_supply (s : State) (c : Chan) (ch : Channel) : (s.setChan c ch).supply = s.supply := rfl
@[simp] theorem setChan_draws (s : State) (c : Chan) (ch : Channel) : (s.setChan c ch).draws = s.draws := rfl
@[simp] theorem setChan_trace (s : State) (c : Chan) (ch : Channel) : (s.setChan c ch).trace = s.trace := rfl
@[simp] theorem setChan_byteAt (s : State) (c : Chan) (ch : Channel) (a : PhysAddr) : (s.setChan c ch).byteAt a = s.byteAt a := rfl

/-! #### `State.setCmd` -/

@[simp] theorem setCmd_chans (s : State) (b : Byte) : (s.setCmd b).dmac.chans = s.dmac.chans := rfl
@[simp] theorem setCmd_cmd (s : State) (b : Byte) : (s.setCmd b).dmac.cmd = b := rfl
@[simp] theorem setCmd_req (s : State) (b : Byte) : (s.setCmd b).dmac.req = s.dmac.req := rfl
@[simp] theorem setCmd_mask (s : State) (b : Byte) : (s.setCmd b).dmac.mask = s.dmac.mask := rfl
@[simp] theorem setCmd_status (s : State) (b : Byte) : (s.setCmd b).dmac.status = s.dmac.status := rfl
@[simp] theorem setCmd_bff (s : State) (b : Byte) : (s.setCmd b).dmac.bff = s.dmac.bff := rfl
@[simp] theorem setCmd_last (s : State) (b : Byte) : (s.setCmd b).dmac.last = s.dmac.last := rfl
@[simp] theorem setCmd_mem (s : State) (b : Byte) : (s.setCmd b).mem = s.mem := rfl
@[simp] theorem setCmd_cfg (s : State) (b : Byte) : (s.setCmd b).cfg = s.cfg := rfl
@[simp] theorem setCmd_inputs (s : State) (b : Byte) : (s.setCmd b).inputs = s.inputs := rfl
@[simp] theorem setCmd_supply (s : State) (b : Byte) : (s.setCmd b).supply = s.supply := rfl
@[simp] theorem setCmd_draws (s : State) (b : Byte) : (s.setCmd b).draws = s.draws := rfl
@[simp] theorem setCmd_trace (s : State) (b : Byte) : (s.setCmd b).trace = s.trace := rfl
@[simp] theorem setCmd_chan (s : State) (b : Byte) (d : Chan) : (s.setCmd b).chan d = s.chan d := rfl
@[simp] theorem setCmd_byteAt (s : State) (b : Byte) (a : PhysAddr) : (s.setCmd b).byteAt a = s.byteAt a := rfl

/-! #### `State.setReq` -/

@[simp] theorem setReq_chans (s : State) (n : Nibble) : (s.setReq n).dmac.chans = s.dmac.chans := rfl
@[simp] theorem setReq_cmd (s : State) (n : Nibble) : (s.setReq n).dmac.cmd = s.dmac.cmd := rfl
@[simp] theorem setReq_req (s : State) (n : Nibble) : (s.setReq n).dmac.req = n := rfl
@[simp] theorem setReq_mask (s : State) (n : Nibble) : (s.setReq n).dmac.mask = s.dmac.mask := rfl
@[simp] theorem setReq_status (s : State) (n : Nibble) : (s.setReq n).dmac.status = s.dmac.status := rfl
@[simp] theorem setReq_bff (s : State) (n : Nibble) : (s.setReq n).dmac.bff = s.dmac.bff := rfl
@[simp] theorem setReq_last (s : State) (n : Nibble) : (s.setReq n).dmac.last = s.dmac.last := rfl
@[simp] theorem setReq_mem (s : State) (n : Nibble) : (s.setReq n).mem = s.mem := rfl
@[simp] theorem setReq_cfg (s : State) (n : Nibble) : (s.setReq n).cfg = s.cfg := rfl
@[simp] theorem setReq_inputs (s : State) (n : Nibble) : (s.setReq n).inputs = s.inputs := rfl
@[simp] theorem setReq_supply (s : State) (n : Nibble) : (s.setReq n).supply = s.supply := rfl
@[simp] theorem setReq_draws (s : State) (n : Nibble) : (s.setReq n).draws = s.draws := rfl
@[simp] theorem setReq_trace (s : State) (n : Nibble) : (s.setReq n).trace = s.trace := rfl
@[simp] theorem setReq_chan (s : State) (n : Nibble) (d : Chan) : (s.setReq n).chan d = s.chan d := rfl
@[simp] theorem setReq_byteAt (s : State) (n : Nibble) (a : PhysAddr) : (s.setReq n).byteAt a = s.byteAt a := rfl

/-! #### `State.setMask` -/

@[simp] theorem setMask_chans (s : State) (n : Nibble) : (s.setMask n).dmac.chans = s.dmac.chans := rfl
@[simp] theorem setMask_cmd (s : State) (n : Nibble) : (s.setMask n).dmac.cmd = s.dmac.cmd := rfl
@[simp] theorem setMask_req (s : State) (n : Nibble) : (s.setMask n).dmac.req = s.dmac.req := rfl
@[simp] theorem setMask_mask (s : State) (n : Nibble) : (s.setMask n).dmac.mask = n := rfl
@[simp] theorem setMask_status (s : State) (n : Nibble) : (s.setMask n).dmac.status = s.dmac.status := rfl
@[simp] theorem setMask_bff (s : State) (n : Nibble) : (s.setMask n).dmac.bff = s.dmac.bff := rfl
@[simp] theorem setMask_last (s : State) (n : Nibble) : (s.setMask n).dmac.last = s.dmac.last := rfl
@[simp] theorem setMask_mem (s : State) (n : Nibble) : (s.setMask n).mem = s.mem := rfl
@[simp] theorem setMask_cfg (s : State) (n : Nibble) : (s.setMask n).cfg = s.cfg := rfl
@[simp] theorem setMask_inputs (s : State) (n : Nibble) : (s.setMask n).inputs = s.inputs := rfl
@[simp] theorem setMask_supply (s : State) (n : Nibble) : (s.setMask n).supply = s.supply := rfl
@[simp] theorem setMask_draws (s : State) (n : Nibble) : (s.setMask n).draws = s.draws := rfl
@[simp] theorem setMask_trace (s : State) (n : Nibble) : (s.setMask n).trace = s.trace := rfl
@[simp] theorem setMask_chan (s : State) (n : Nibble) (d : Chan) : (s.setMask n).chan d = s.chan d := rfl
@[simp] theorem setMask_byteAt (s : State) (n : Nibble) (a : PhysAddr) : (s.setMask n).byteAt a = s.byteAt a := rfl

/-! #### `State.setStatus` -/

@[simp] theorem setStatus_chans (s : State) (b : Byte) : (s.setStatus b).dmac.chans = s.dmac.chans := rfl
@[simp] theorem setStatus_cmd (s : State) (b : Byte) : (s.setStatus b).dmac.cmd = s.dmac.cmd := rfl
@[simp] theorem setStatus_req (s : State) (b : Byte) : (s.setStatus b).dmac.req = s.dmac.req := rfl
@[simp] theorem setStatus_mask (s : State) (b : Byte) : (s.setStatus b).dmac.mask = s.dmac.mask := rfl
@[simp] theorem setStatus_status (s : State) (b : Byte) : (s.setStatus b).dmac.status = b := rfl
@[simp] theorem setStatus_bff (s : State) (b : Byte) : (s.setStatus b).dmac.bff = s.dmac.bff := rfl
@[simp] theorem setStatus_last (s : State) (b : Byte) : (s.setStatus b).dmac.last = s.dmac.last := rfl
@[simp] theorem setStatus_mem (s : State) (b : Byte) : (s.setStatus b).mem = s.mem := rfl
@[simp] theorem setStatus_cfg (s : State) (b : Byte) : (s.setStatus b).cfg = s.cfg := rfl
@[simp] theorem setStatus_inputs (s : State) (b : Byte) : (s.setStatus b).inputs = s.inputs := rfl
@[simp] theorem setStatus_supply (s : State) (b : Byte) : (s.setStatus b).supply = s.supply := rfl
@[simp] theorem setStatus_draws (s : State) (b : Byte) : (s.setStatus b).draws = s.draws := rfl
@[simp] theorem setStatus_trace (s : State) (b : Byte) : (s.setStatus b).trace = s.trace := rfl
@[simp] theorem setStatus_chan (s : State) (b : Byte) (d : Chan) : (s.setStatus b).chan d = s.chan d := rfl
@[simp] theorem setStatus_byteAt (s : State) (b : Byte) (a : PhysAddr) : (s.setStatus b).byteAt a = s.byteAt a := rfl

/-! #### `State.setBff` -/

@[simp] theorem setBff_chans (s : State) (v : Bool) : (s.setBff v).dmac.chans = s.dmac.chans := rfl
@[simp] theorem setBff_cmd (s : State) (v : Bool) : (s.setBff v).dmac.cmd = s.dmac.cmd := rfl
@[simp] theorem setBff_req (s : State) (v : Bool) : (s.setBff v).dmac.req = s.dmac.req := rfl
@[simp] theorem setBff_mask (s : State) (v : Bool) : (s.setBff v).dmac.mask = s.dmac.mask := rfl
@[simp] theorem setBff_status (s : State) (v : Bool) : (s.setBff v).dmac.status = s.dmac.status := rfl
@[simp] theorem setBff_bff (s : State) (v : Bool) : (s.setBff v).dmac.bff = v := rfl
@[simp] theorem setBff_last (s : State) (v : Bool) : (s.setBff v).dmac.last = s.dmac.last := rfl
@[simp] theorem setBff_mem (s : State) (v : Bool) : (s.setBff v).mem = s.mem := rfl
@[simp] theorem setBff_cfg (s : State) (v : Bool) : (s.setBff v).cfg = s.cfg := rfl
@[simp] theorem setBff_inputs (s : State) (v : Bool) : (s.setBff v).inputs = s.inputs := rfl
@[simp] theorem setBff_supply (s : State) (v : Bool) : (s.setBff v).supply = s.supply := rfl
@[simp] theorem setBff_draws (s : State) (v : Bool) : (s.setBff v).draws = s.draws := rfl
@[simp] theorem setBff_trace (s : State) (v : Bool) : (s.setBff v).trace = s.trace := rfl
@[simp] theorem setBff_chan (s : State) (v : Bool) (d : Chan) : (s.setBff v).chan d = s.chan d := rfl
@[simp] theorem setBff_byteAt (s : State) (v : Bool) (a : PhysAddr) : (s.setBff v).byteAt a = s.byteAt a := rfl

/-! #### `State.toggleBff` -/

@[simp] theorem toggleBff_chans (s : State) : s.toggleBff.dmac.chans = s.dmac.chans := rfl
@[simp] theorem toggleBff_cmd (s : State) : s.toggleBff.dmac.cmd = s.dmac.cmd := rfl
@[simp] theorem toggleBff_req (s : State) : s.toggleBff.dmac.req = s.dmac.req := rfl
@[simp] theorem toggleBff_mask (s : State) : s.toggleBff.dmac.mask = s.dmac.mask := rfl
@[simp] theorem toggleBff_status (s : State) : s.toggleBff.dmac.status = s.dmac.status := rfl
@[simp] theorem toggleBff_bff (s : State) : s.toggleBff.dmac.bff = (!s.dmac.bff) := rfl
@[simp] theorem toggleBff_last (s : State) : s.toggleBff.dmac.last = s.dmac.last := rfl
@[simp] theorem toggleBff_mem (s : State) : s.toggleBff.mem = s.mem := rfl
@[simp] theorem toggleBff_cfg (s : State) : s.toggleBff.cfg = s.cfg := rfl
@[simp] theorem toggleBff_inputs (s : State) : s.toggleBff.inputs = s.inputs := rfl
@[simp] theorem toggleBff_supply (s : State) : s.toggleBff.supply = s.supply := rfl
@[simp] theorem toggleBff_draws (s : State) : s.toggleBff.draws = s.draws := rfl
@[simp] theorem toggleBff_trace (s : State) : s.toggleBff.trace = s.trace := rfl
@[simp] theorem toggleBff_chan (s : State) (d : Chan) : s.toggleBff.chan d = s.chan d := rfl
@[simp] theorem toggleBff_byteAt (s : State) (a : PhysAddr) : s.toggleBff.byteAt a = s.byteAt a := rfl

/-! #### `State.setLast` -/

@[simp] theorem setLast_chans (s : State) (c : Chan) : (s.setLast c).dmac.chans = s.dmac.chans := rfl
@[simp] theorem setLast_cmd (s : State) (c : Chan) : (s.setLast c).dmac.cmd = s.dmac.cmd := rfl
@[simp] theorem setLast_req (s : State) (c : Chan) : (s.setLast c).dmac.req = s.dmac.req := rfl
@[simp] theorem setLast_mask (s : State) (c : Chan) : (s.setLast c).dmac.mask = s.dmac.mask := rfl
@[simp] theorem setLast_status (s : State) (c : Chan) : (s.setLast c).dmac.status = s.dmac.status := rfl
@[simp] theorem setLast_bff (s : State) (c : Chan) : (s.setLast c).dmac.bff = s.dmac.bff := rfl
@[simp] theorem setLast_last (s : State) (c : Chan) : (s.setLast c).dmac.last = c := rfl
@[simp] theorem setLast_mem (s : State) (c : Chan) : (s.setLast c).mem = s.mem := rfl
@[simp] theorem setLast_cfg (s : State) (c : Chan) : (s.setLast c).cfg = s.cfg := rfl
@[simp] theorem setLast_inputs (s : State) (c : Chan) : (s.setLast c).inputs = s.inputs := rfl
@[simp] theorem setLast_supply (s : State) (c : Chan) : (s.setLast c).supply = s.supply := rfl
@[simp] theorem setLast_draws (s : State) (c : Chan) : (s.setLast c).draws = s.draws := rfl
@[simp] theorem setLast_trace (s : State) (c : Chan) : (s.setLast c).trace = s.trace := rfl
@[simp] theorem setLast_chan (s : State) (c : Chan) (d : Chan) : (s.setLast c).chan d = s.chan d := rfl
@[simp] theorem setLast_byteAt (s : State) (c : Chan) (a : PhysAddr) : (s.setLast c).byteAt a = s.byteAt a := rfl

/-! #### `State.setByte` -/

@[simp] theorem setByte_dmac (s : State) (a : PhysAddr) (v : Byte) : (s.setByte a v).dmac = s.dmac := rfl
@[simp] theorem setByte_mem (s : State) (a : PhysAddr) (v : Byte) : (s.setByte a v).mem = s.mem.write a.toNat v := rfl
@[simp] theorem setByte_cfg (s : State) (a : PhysAddr) (v : Byte) : (s.setByte a v).cfg = s.cfg := rfl
@[simp] theorem setByte_inputs (s : State) (a : PhysAddr) (v : Byte) : (s.setByte a v).inputs = s.inputs := rfl
@[simp] theorem setByte_supply (s : State) (a : PhysAddr) (v : Byte) : (s.setByte a v).supply = s.supply := rfl
@[simp] theorem setByte_draws (s : State) (a : PhysAddr) (v : Byte) : (s.setByte a v).draws = s.draws := rfl
@[simp] theorem setByte_trace (s : State) (a : PhysAddr) (v : Byte) : (s.setByte a v).trace = s.trace := rfl
@[simp] theorem setByte_chan (s : State) (a : PhysAddr) (v : Byte) (d : Chan) : (s.setByte a v).chan d = s.chan d := rfl

/-! #### `State.emit` -/

@[simp] theorem emit_dmac (s : State) (g : Signal) : (s.emit g).dmac = s.dmac := rfl
@[simp] theorem emit_mem (s : State) (g : Signal) : (s.emit g).mem = s.mem := rfl
@[simp] theorem emit_cfg (s : State) (g : Signal) : (s.emit g).cfg = s.cfg := rfl
@[simp] theorem emit_inputs (s : State) (g : Signal) : (s.emit g).inputs = s.inputs := rfl
@[simp] theorem emit_supply (s : State) (g : Signal) : (s.emit g).supply = s.supply := rfl
@[simp] theorem emit_draws (s : State) (g : Signal) : (s.emit g).draws = s.draws := rfl
@[simp] theorem emit_trace (s : State) (g : Signal) : (s.emit g).trace = s.trace ++ [g] := rfl
@[simp] theorem emit_chan (s : State) (g : Signal) (d : Chan) : (s.emit g).chan d = s.chan d := rfl
@[simp] theorem emit_byteAt (s : State) (g : Signal) (a : PhysAddr) : (s.emit g).byteAt a = s.byteAt a := rfl

/-- A replaced channel reads as its replacement, every other channel as before. -/
theorem chan_setChan (s : State) (c d : Chan) (ch : Channel) :
    (s.setChan c ch).chan d = if d = c then ch else s.chan d := by
  unfold State.chan State.setChan
  by_cases h : d = c
  · subst h; simp
  · have h' : c.val ≠ d.val := fun e => h (Fin.ext e.symm)
    simp [h, h']

@[simp] theorem chan_setChan_self (s : State) (c : Chan) (ch : Channel) : (s.setChan c ch).chan c = ch := by
  simp [chan_setChan]

theorem chan_setChan_of_ne (s : State) (c : Chan) (ch : Channel) {d : Chan} (h : d ≠ c) :
    (s.setChan c ch).chan d = s.chan d := by
  simp [chan_setChan, h]

@[simp] theorem setChan_setChan (s : State) (c : Chan) (x y : Channel) :
    (s.setChan c x).setChan c y = s.setChan c y := by
  simp [State.setChan]

/-- A channel is idle exactly when it is masked (R30). -/
theorem phase_eq_idle (s : State) (c : Chan) : s.phase c = .idle ↔ s.dmac.mask.getLsbD c.val = true := by
  unfold State.phase State.armed bitOf
  cases s.dmac.mask.getLsbD c.val <;> simp

/-- Two states with the same channels have the same channel file. -/
theorem chans_ext {s t : State} (h : ∀ c, t.chan c = s.chan c) : t.dmac.chans = s.dmac.chans := by
  apply Vector.ext
  intro i hi
  exact h ⟨i, hi⟩

end Sys2Proof.Machine.State
end

