-- ==== Sys2Proof/Laws/Memory.lean ====
section
/-! SUPPORT. The laws of main memory (20_memory.md R46): a read after a write to the same address gives the byte written, a
write leaves every other address alone, and every write keeps the canonical form. -/

namespace Sys2Proof.Machine.Memory

open Sys2Proof Sys2Proof.Machine

/-- A write leaves every other address alone; no form of the memory is needed for it. -/
theorem read_write_other (m : Memory) {a k : Nat} (v : Byte) (h : a ≠ k) : (m.write k v).read a = m.read a := by
  induction m with
  | nil => by_cases hv : v = background <;> simp [write, read, hv, h]
  | cons cell rest ih =>
    obtain ⟨j, x⟩ := cell
    unfold write
    split
    · split <;> simp [read, h]
    · split
      · next hjk => subst hjk; split <;> simp [read, h]
      · simp [read, ih]

/-- The cells listed from `lo` on list nothing below `lo`. -/
theorem read_below {m : Memory} {lo a : Nat} (hm : wfFrom lo m = true) (h : a < lo) : m.read a = background := by
  induction m generalizing lo with
  | nil => rfl
  | cons cell rest ih =>
    obtain ⟨j, x⟩ := cell
    simp only [wfFrom, Bool.and_eq_true, decide_eq_true_eq] at hm
    obtain ⟨⟨⟨hj, _⟩, _⟩, hrest⟩ := hm
    have hne : a ≠ j := by omega
    simp only [read, hne, if_false]
    exact ih hrest (by omega)

/-- A canonical form from a higher address is one from a lower address. -/
theorem wfFrom_mono {m : Memory} {lo lo' : Nat} (hm : wfFrom lo m = true) (h : lo' ≤ lo) : wfFrom lo' m = true := by
  cases m with
  | nil => rfl
  | cons cell rest =>
    obtain ⟨j, x⟩ := cell
    simp only [wfFrom, Bool.and_eq_true, decide_eq_true_eq] at hm ⊢
    exact ⟨⟨⟨by omega, hm.1.1.2⟩, hm.1.2⟩, hm.2⟩

theorem read_write_same_from {m : Memory} {lo k : Nat} (v : Byte) (hm : wfFrom lo m = true) :
    (m.write k v).read k = v := by
  induction m generalizing lo with
  | nil => by_cases hv : v = background <;> simp [write, read, hv]
  | cons cell rest ih =>
    obtain ⟨j, x⟩ := cell
    simp only [wfFrom, Bool.and_eq_true, decide_eq_true_eq] at hm
    obtain ⟨_, hrest⟩ := hm
    unfold write
    split
    · next hkj =>
      split
      · next hv =>
        have hne : k ≠ j := by omega
        simp only [read, hne, if_false, hv]
        exact read_below hrest (by omega)
      · simp [read]
    · split
      · next hkj =>
        split
        · next hv =>
          rw [hv, hkj]
          exact read_below hrest (by omega)
        · simp [read, hkj]
      · next hkj =>
        simp only [read, hkj, if_false]
        exact ih hrest

/-- A read after a write to the same address gives the byte written. -/
theorem read_write_same {m : Memory} (hm : m.wf = true) (k : Nat) (v : Byte) : (m.write k v).read k = v :=
  read_write_same_from v hm

theorem wfFrom_write {m : Memory} {lo k : Nat} (v : Byte) (hm : wfFrom lo m = true) (hlo : lo ≤ k) (hk : k < 2 ^ 24) :
    wfFrom lo (m.write k v) = true := by
  induction m generalizing lo with
  | nil =>
    by_cases hv : v = background
    · simp [write, hv, wfFrom]
    · simp [write, hv, wfFrom, hlo]; omega
  | cons cell rest ih =>
    obtain ⟨j, x⟩ := cell
    have hm' := hm
    simp only [wfFrom, Bool.and_eq_true, decide_eq_true_eq] at hm
    obtain ⟨⟨⟨hj, hj24⟩, hx⟩, hrest⟩ := hm
    unfold write
    split
    · next hkj =>
      split
      · exact hm'
      · next hv =>
        simp only [wfFrom, Bool.and_eq_true, decide_eq_true_eq]
        exact ⟨⟨⟨hlo, hk⟩, hv⟩, ⟨⟨by omega, hj24⟩, hx⟩, hrest⟩
    · split
      · next hkj =>
        split
        · exact wfFrom_mono hrest (by omega)
        · next hv =>
          simp only [wfFrom, Bool.and_eq_true, decide_eq_true_eq]
          exact ⟨⟨⟨hj, hj24⟩, hv⟩, hrest⟩
      · next hge hne =>
        simp only [wfFrom, Bool.and_eq_true, decide_eq_true_eq]
        exact ⟨⟨⟨hj, hj24⟩, hx⟩, ih hrest (by omega)⟩

/-- Every write below 2^24 keeps the canonical form. -/
theorem wf_write {m : Memory} (hm : m.wf = true) {k : Nat} (hk : k < 2 ^ 24) (v : Byte) : (m.write k v).wf = true :=
  wfFrom_write v hm (Nat.zero_le _) hk

/-- Two canonical memories that read alike at every address are equal data. -/
theorem wfFrom_ext {m n : Memory} {lo : Nat} (hm : wfFrom lo m = true) (hn : wfFrom lo n = true)
    (h : ∀ a, m.read a = n.read a) : m = n := by
  induction m generalizing n lo with
  | nil =>
    cases n with
    | nil => rfl
    | cons cell rest =>
      obtain ⟨j, x⟩ := cell
      simp only [wfFrom, Bool.and_eq_true, decide_eq_true_eq] at hn
      have := h j
      simp [read] at this
      exact absurd this.symm hn.1.2
  | cons cell rest ih =>
    obtain ⟨j, x⟩ := cell
    cases n with
    | nil =>
      simp only [wfFrom, Bool.and_eq_true, decide_eq_true_eq] at hm
      have := h j
      simp [read] at this
      exact absurd this hm.1.2
    | cons cell' rest' =>
      obtain ⟨k, y⟩ := cell'
      simp only [wfFrom, Bool.and_eq_true, decide_eq_true_eq] at hm hn
      obtain ⟨⟨⟨_, _⟩, hx⟩, hrest⟩ := hm
      obtain ⟨⟨⟨_, _⟩, hy⟩, hrest'⟩ := hn
      have hjk : j = k := by
        rcases Nat.lt_trichotomy j k with hlt | heq | hgt
        · have := h j
          have hne : j ≠ k := by omega
          simp only [read, if_true, hne, if_false] at this
          rw [read_below hrest' (by omega)] at this
          exact absurd this hx
        · exact heq
        · have := h k
          have hne : k ≠ j := by omega
          simp only [read, if_true, hne, if_false] at this
          rw [read_below hrest (by omega)] at this
          exact absurd this.symm hy
      subst hjk
      have hxy : x = y := by simpa [read] using h j
      subst hxy
      have : rest = rest' := by
        apply ih hrest hrest'
        intro a
        by_cases ha : a = j
        · subst ha
          rw [read_below hrest (by omega), read_below hrest' (by omega)]
        · simpa [read, ha] using h a
      rw [this]

end Sys2Proof.Machine.Memory

namespace Sys2Proof.Machine.State

open Sys2Proof Sys2Proof.Machine

/-- `MemWrite` then `MemRead` at one address (R46). -/
theorem byteAt_setByte_self {s : State} (hm : s.mem.wf = true) (a : PhysAddr) (v : Byte) :
    (s.setByte a v).byteAt a = v :=
  Memory.read_write_same hm _ _

/-- `MemWrite` leaves every other address alone (R46). -/
theorem byteAt_setByte_of_ne (s : State) {a k : PhysAddr} (v : Byte) (h : a ≠ k) :
    (s.setByte k v).byteAt a = s.byteAt a :=
  Memory.read_write_other _ _ fun e => h (BitVec.eq_of_toNat_eq e)

/-- `MemWrite` keeps the canonical form of memory. -/
theorem wf_setByte {s : State} (hm : s.mem.wf = true) (a : PhysAddr) (v : Byte) : (s.setByte a v).mem.wf = true :=
  Memory.wf_write hm (by simpa using a.isLt) v

end Sys2Proof.Machine.State
end

