-- ==== Sys2Proof/Laws/Operands.lean ====
section
/-! SUPPORT. What the operand and flag functions are on numbers and on single bits (30_encoding.md R66 to R71). -/

namespace Sys2Proof.Machine

open Sys2Proof

theorem toNat_selectByte (bff : Bool) (w : Word) :
    (selectByte bff w).toNat = if bff then w.toNat / 256 else w.toNat % 256 := by
  have := w.isLt
  cases bff <;> simp [selectByte, BitVec.extractLsb'_toNat, Nat.shiftRight_eq_div_pow]
  omega

theorem toNat_insertByte (bff : Bool) (w : Word) (b : Byte) :
    (insertByte bff w b).toNat = if bff then b.toNat * 256 + w.toNat % 256 else w.toNat / 256 * 256 + b.toNat := by
  have hw := w.isLt
  have hb := b.isLt
  cases bff
  · simp only [insertByte, Bool.false_eq_true, if_false, BitVec.toNat_append, BitVec.extractLsb'_toNat,
      Nat.shiftRight_eq_div_pow]
    rw [← Nat.shiftLeft_add_eq_or_of_lt hb, Nat.shiftLeft_eq]
    omega
  · simp only [insertByte, if_true, BitVec.toNat_append, BitVec.extractLsb'_toNat, Nat.shiftRight_zero]
    rw [← Nat.shiftLeft_add_eq_or_of_lt (Nat.mod_lt _ (by decide)), Nat.shiftLeft_eq]

/-- A byte put in is the byte read back from the same half. -/
theorem selectByte_insertByte (bff : Bool) (w : Word) (b : Byte) : selectByte bff (insertByte bff w b) = b := by
  apply BitVec.eq_of_toNat_eq
  have hb := b.isLt
  rw [toNat_selectByte, toNat_insertByte]
  cases bff <;> simp <;> omega

/-- The two halves of a register, put in low first, give the register (R71). -/
theorem insertByte_insertByte (w x : Word) :
    insertByte true (insertByte false x (w.extractLsb' 0 8)) (w.extractLsb' 8 8) = w := by
  apply BitVec.eq_of_toNat_eq
  have hw := w.isLt
  rw [toNat_insertByte, toNat_insertByte]
  simp only [if_true, Bool.false_eq_true, if_false, BitVec.extractLsb'_toNat, Nat.shiftRight_eq_div_pow]
  omega

theorem bitOf_lowNibble (b : Byte) (c : Chan) : bitOf (lowNibble b) c = b.getLsbD c.val := by
  have := c.isLt
  simp [bitOf, lowNibble, this]

theorem bitOf_withBit (n : Nibble) (c d : Chan) : bitOf (withBit n c) d = (bitOf n d || decide (d = c)) := by
  revert n; revert c d; decide

theorem bitOf_withoutBit (n : Nibble) (c d : Chan) : bitOf (withoutBit n c) d = (bitOf n d && !decide (d = c)) := by
  revert n; revert c d; decide

theorem bitOf_eligible (q req mask : Nibble) (c : Chan) :
    bitOf (eligible q req mask) c = ((q.getLsbD c.val || req.getLsbD c.val) && !mask.getLsbD c.val) := by
  have := c.isLt
  simp [bitOf, eligible, this]

theorem tcFlag_withTc (b : Byte) (c d : Chan) : tcFlag (withTc b c) d = (tcFlag b d || decide (d = c)) := by
  revert b; revert c d; decide

theorem rqFlag_withTc (b : Byte) (c d : Chan) : rqFlag (withTc b c) d = rqFlag b d := by
  revert b; revert c d; decide

theorem tcFlag_withRequests (b : Byte) (e : Nibble) (c : Chan) : tcFlag (withRequests b e) c = tcFlag b c := by
  have := c.isLt
  simp only [tcFlag, withRequests, BitVec.getLsbD_or, BitVec.getLsbD_append]
  simp [this]

theorem rqFlag_withRequests (b : Byte) (e : Nibble) (c : Chan) :
    rqFlag (withRequests b e) c = (rqFlag b c || bitOf e c) := by
  have := c.isLt
  simp only [rqFlag, withRequests, bitOf, BitVec.getLsbD_or, BitVec.getLsbD_append]
  simp

theorem isTerminalCount_eq_true (w : Word) : isTerminalCount w = true ↔ w = 0x0000#16 := by
  simp [isTerminalCount]

theorem isTerminalCount_eq_false (w : Word) : isTerminalCount w = false ↔ w ≠ 0x0000#16 := by
  simp [isTerminalCount]

theorem toNat_lowNibble (b : Byte) : (lowNibble b).toNat = b.toNat % 16 := by
  simp [lowNibble, BitVec.extractLsb'_toNat]

theorem toNat_zext8 (n : Nibble) : (zext8 n).toNat = n.toNat := by
  have := n.isLt
  simp [zext8]
  omega

/-- The transfer type in terms of the two bits of R66. -/
theorem transferType_eq_reserved (mode : Byte) : transferType mode = .reserved ↔ mode.extractLsb' 2 2 = 0b11#2 := by
  revert mode; decide

theorem transferType_eq_read (mode : Byte) : transferType mode = .read ↔ mode.extractLsb' 2 2 = 0b10#2 := by
  revert mode; decide

theorem transferType_eq_write (mode : Byte) : transferType mode = .write ↔ mode.extractLsb' 2 2 = 0b01#2 := by
  revert mode; decide

theorem transferType_eq_verify (mode : Byte) : transferType mode = .verify ↔ mode.extractLsb' 2 2 = 0b00#2 := by
  revert mode; decide

theorem transferMode_eq_cascade (mode : Byte) : transferMode mode = .cascade ↔ mode.extractLsb' 6 2 = 0b11#2 := by
  revert mode; decide

end Sys2Proof.Machine
end

