-- ==== Sys2Proof/Laws/Outcome.lean ====
section
/-! SUPPORT. What the shared outcome operations can answer (60_exceptions.md R181), and how a run of several steps is cut
into its steps. -/

namespace Sys2Proof.Machine

open Sys2Proof

/-- An operation with a check goes on exactly when the check finds nothing, and then to the state it was given. -/
theorem unlessFault_eq_next {check : Option Fault} {s t : State} :
    unlessFault check s = .next t ↔ check = none ∧ s = t := by
  cases check <;> simp [unlessFault]

/-- An operation with a check ends in exactly the fault the check finds. -/
theorem unlessFault_eq_fault {check : Option Fault} {s : State} {f : Fault} :
    unlessFault check s = .fault f ↔ check = some f := by
  cases check <;> simp [unlessFault]

theorem unlessFault_ne_refused (check : Option Fault) (s : State) (r : Refusal) : unlessFault check s ≠ .refused r := by
  cases check <;> simp [unlessFault]

@[simp] theorem returnByte_eq_next {v : Byte} {s t : State} : returnByte v s = .next t ↔ s.emit (.portRead v) = t := by
  simp [returnByte]

@[simp] theorem servicedBy_next (c : Chan) (t : State) : servicedBy c (.next t) = .next (t.setLast c) := rfl

@[simp] theorem servicedBy_fault (c : Chan) (f : Fault) : servicedBy c (.fault f) = .fault f := rfl

/-- A serviced tick answers a state exactly when the engine does, and `LAST` is then the serviced channel (R157). -/
theorem servicedBy_eq_next {c : Chan} {o : Host.Outcome State Fault Refusal} {t : State} :
    servicedBy c o = .next t ↔ ∃ u, o = .next u ∧ t = u.setLast c := by
  cases o <;> simp [servicedBy, eq_comm]

theorem servicedBy_eq_fault {c : Chan} {o : Host.Outcome State Fault Refusal} {f : Fault} :
    servicedBy c o = .fault f ↔ o = .fault f := by
  cases o <;> simp [servicedBy]

@[simp] theorem runs_zero (s t : State) : Runs 0 s t ↔ s = t := by
  show (Host.Outcome.next s = Host.Outcome.next t) ↔ _
  simp

/-- A run of `k + 1` steps is one step and then a run of `k`. -/
theorem runs_succ (k : Nat) (s t : State) : Runs (k + 1) s t ↔ ∃ u, step s = .next u ∧ Runs k u t := by
  unfold Runs
  cases h : step s with
  | next u =>
    have h' : Sys2Proof.core.step s = .next u := h
    simp [Host.Core.run, h']
  | fault f =>
    have h' : Sys2Proof.core.step s = .fault f := h
    simp [Host.Core.run, h']
  | refused r =>
    have h' : Sys2Proof.core.step s = .refused r := h
    simp [Host.Core.run, h']

/-- Two runs one after the other are one run. -/
theorem runs_add {j k : Nat} {s u t : State} (h : Runs j s u) (h' : Runs k u t) : Runs (j + k) s t := by
  induction j generalizing s with
  | zero =>
    rw [runs_zero] at h
    subst h
    simpa using h'
  | succ j ih =>
    obtain ⟨v, hv, hu⟩ := (runs_succ j s u).mp h
    rw [Nat.add_right_comm, runs_succ]
    exact ⟨v, hv, ih hu⟩

/-- With an event word at the head of the queue, a step runs what it decodes to (R52). -/
theorem step_op {s : State} {w : EventWord} {rest : List Input} (h : s.inputs = .op w :: rest) :
    step s = runWord w { s with inputs := rest } := by
  simp [step, runNext, h, runInput]

end Sys2Proof.Machine
end

