-- ==== Sys2Proof/Laws/Transfer.lean ====
section
/-! SUPPORT. Everything one unit of a transfer can do (43_transfer_engine.md R130): the registers of the channel after it,
the flag registers after it, the memory, the card supply and the trace after it. Later proofs cite these and do not unfold
the engine. -/

namespace Sys2Proof.Machine

open Sys2Proof

/-- `BPTR[C]` after action 2 (R134). -/
def Channel.movedBptr (ch : Channel) : Word :=
  match transferType ch.mode with
  | .read     => ch.bptr + 1
  | .write    => ch.bptr + 1
  | .verify   => ch.bptr
  | .reserved => ch.bptr

/-- The registers of a channel after actions 1 to 4. -/
def Channel.counted (ch : Channel) : Channel :=
  { ch with bptr := ch.movedBptr, acur := ch.addressAhead 1, wcur := ch.wcur - 1 }

/-- The registers of a channel after a whole unit (R130). -/
def Channel.afterUnit (ch : Channel) : Channel :=
  if isTerminalCount ch.wcur && autoinitializes ch.mode then
    { ch with acur := ch.abase, wcur := ch.wbase, bptr := 0x0000#16 }
  else
    ch.counted

/-- A unit that is no terminal count, or has no autoinitialize, leaves the counted registers. -/
theorem Channel.afterUnit_counted {ch : Channel} (h : ch.wcur ≠ 0x0000#16 ∨ autoinitializes ch.mode = false) :
    ch.afterUnit = ch.counted := by
  unfold Channel.afterUnit isTerminalCount
  rcases h with h | h <;> simp [h]

/-- A terminal count with autoinitialize leaves the reloaded registers (R138). -/
theorem Channel.afterUnit_reloaded {ch : Channel} (h : ch.wcur = 0x0000#16) (ha : autoinitializes ch.mode = true) :
    ch.afterUnit = { ch with acur := ch.abase, wcur := ch.wbase, bptr := 0x0000#16 } := by
  simp [Channel.afterUnit, isTerminalCount, h, ha]

/-- No unit changes the base registers, the mode or the page. -/
@[simp] theorem Channel.afterUnit_wbase (ch : Channel) : ch.afterUnit.wbase = ch.wbase := by
  unfold Channel.afterUnit; split <;> rfl

@[simp] theorem Channel.afterUnit_abase (ch : Channel) : ch.afterUnit.abase = ch.abase := by
  unfold Channel.afterUnit; split <;> rfl

@[simp] theorem Channel.afterUnit_mode (ch : Channel) : ch.afterUnit.mode = ch.mode := by
  unfold Channel.afterUnit; split <;> rfl

@[simp] theorem Channel.afterUnit_page (ch : Channel) : ch.afterUnit.page = ch.page := by
  unfold Channel.afterUnit; split <;> rfl

/-- The address some units ahead, as a number (R120, R143). -/
theorem Channel.toNat_addressAhead (ch : Channel) (off : Word) :
    (ch.addressAhead off).toNat = addressAfter ch off.toNat := by
  have := off.isLt
  unfold Channel.addressAhead addressAfter decrements
  split
  · simp [BitVec.toNat_sub]; omega
  · simp

namespace State

/-- What `takeCardByte` changes: the supply or the counter of free bytes, nothing else. -/
@[simp] theorem takeCardByte_dmac (s : State) (c : Chan) : (s.takeCardByte c).dmac = s.dmac := by
  unfold takeCardByte; split <;> rfl

@[simp] theorem takeCardByte_chan (s : State) (c d : Chan) : (s.takeCardByte c).chan d = s.chan d := by
  simp [State.chan]

@[simp] theorem takeCardByte_mem (s : State) (c : Chan) : (s.takeCardByte c).mem = s.mem := by
  unfold takeCardByte; split <;> rfl

@[simp] theorem takeCardByte_cfg (s : State) (c : Chan) : (s.takeCardByte c).cfg = s.cfg := by
  unfold takeCardByte; split <;> rfl

@[simp] theorem takeCardByte_inputs (s : State) (c : Chan) : (s.takeCardByte c).inputs = s.inputs := by
  unfold takeCardByte; split <;> rfl

@[simp] theorem takeCardByte_trace (s : State) (c : Chan) : (s.takeCardByte c).trace = s.trace := by
  unfold takeCardByte; split <;> rfl

/-- A byte taken from a supply that is not empty is its head, and the rest stays. -/
theorem cardNext_cons {s : State} {c : Chan} {v : Byte} {rest : List Byte} (h : s.supply[c] = v :: rest) :
    s.cardNext c = v := by
  simp only [cardNext, h]

theorem takeCardByte_cons {s : State} {c : Chan} {v : Byte} {rest : List Byte} (h : s.supply[c] = v :: rest) :
    s.takeCardByte c = { s with supply := s.supply.set c rest } := by
  simp only [takeCardByte, h]

/-- Either way the supply has lost its head, if it had one. -/
theorem takeCardByte_supply (s : State) (c : Chan) : (s.takeCardByte c).supply = s.supply.set c s.supply[c].tail := by
  unfold takeCardByte
  split
  · next h => simp [h]
  · next h =>
    apply Vector.ext
    intro i hi
    by_cases e : c.val = i
    · subst e
      have : s.supply[c.val] = [] := h
      simp [this]
    · simp [e]

/-! #### `moveUnit`: actions 1 and 2 -/

/-- Action 2 of a read transfer (R133). -/
theorem moveUnit_read {s : State} {c : Chan} (h : transferType (s.chan c).mode = .read) :
    s.moveUnit c = (((s.emit (.memRead (s.phys c 0#16) (s.byteAt (s.phys c 0#16)))).devPut c (s.byteAt (s.phys c 0#16))).bumpBptr c) := by
  simp [moveUnit, h, memRead]

/-- Action 2 of a write transfer (R133). -/
theorem moveUnit_write {s : State} {c : Chan} (h : transferType (s.chan c).mode = .write) :
    s.moveUnit c = ((((s.takeCardByte c).emit (.devGet c (s.chan c).bptr (s.cardNext c))).memWrite (s.phys c 0#16)
      (s.cardNext c)).bumpBptr c) := by
  simp [moveUnit, h, devGet]

/-- Action 2 of a verify transfer moves nothing (R133). -/
theorem moveUnit_verify {s : State} {c : Chan} (h : transferType (s.chan c).mode = .verify) : s.moveUnit c = s := by
  simp [moveUnit, h]

theorem moveUnit_chan (s : State) (c d : Chan) :
    (s.moveUnit c).chan d = if d = c then { s.chan c with bptr := (s.chan c).movedBptr } else s.chan d := by
  cases h : transferType (s.chan c).mode <;> by_cases hd : d = c <;>
    simp [moveUnit, h, bumpBptr, memRead, devGet, memWrite, devPut, Channel.movedBptr, chan_setChan, hd]

@[simp] theorem moveUnit_cmd (s : State) (c : Chan) : (s.moveUnit c).dmac.cmd = s.dmac.cmd := by
  cases h : transferType (s.chan c).mode <;> simp [moveUnit, h, bumpBptr, memRead, devGet, memWrite, devPut]

@[simp] theorem moveUnit_req (s : State) (c : Chan) : (s.moveUnit c).dmac.req = s.dmac.req := by
  cases h : transferType (s.chan c).mode <;> simp [moveUnit, h, bumpBptr, memRead, devGet, memWrite, devPut]

@[simp] theorem moveUnit_mask (s : State) (c : Chan) : (s.moveUnit c).dmac.mask = s.dmac.mask := by
  cases h : transferType (s.chan c).mode <;> simp [moveUnit, h, bumpBptr, memRead, devGet, memWrite, devPut]

@[simp] theorem moveUnit_status (s : State) (c : Chan) : (s.moveUnit c).dmac.status = s.dmac.status := by
  cases h : transferType (s.chan c).mode <;> simp [moveUnit, h, bumpBptr, memRead, devGet, memWrite, devPut]

@[simp] theorem moveUnit_bff (s : State) (c : Chan) : (s.moveUnit c).dmac.bff = s.dmac.bff := by
  cases h : transferType (s.chan c).mode <;> simp [moveUnit, h, bumpBptr, memRead, devGet, memWrite, devPut]

@[simp] theorem moveUnit_last (s : State) (c : Chan) : (s.moveUnit c).dmac.last = s.dmac.last := by
  cases h : transferType (s.chan c).mode <;> simp [moveUnit, h, bumpBptr, memRead, devGet, memWrite, devPut]

@[simp] theorem moveUnit_cfg (s : State) (c : Chan) : (s.moveUnit c).cfg = s.cfg := by
  cases h : transferType (s.chan c).mode <;> simp [moveUnit, h, bumpBptr, memRead, devGet, memWrite, devPut]

@[simp] theorem moveUnit_inputs (s : State) (c : Chan) : (s.moveUnit c).inputs = s.inputs := by
  cases h : transferType (s.chan c).mode <;> simp [moveUnit, h, bumpBptr, memRead, devGet, memWrite, devPut]

/-- The memory after action 2: one byte replaced by a write transfer, otherwise as it was (R45). -/
theorem moveUnit_mem (s : State) (c : Chan) :
    (s.moveUnit c).mem =
      if transferType (s.chan c).mode = .write then s.mem.write (s.phys c 0#16).toNat (s.cardNext c) else s.mem := by
  cases h : transferType (s.chan c).mode <;> simp [moveUnit, h, bumpBptr, memRead, devGet, memWrite, devPut]

/-- The card supply after action 2: one byte taken by a write transfer, otherwise as it was (R173). -/
theorem moveUnit_supply (s : State) (c : Chan) :
    (s.moveUnit c).supply =
      if transferType (s.chan c).mode = .write then (s.takeCardByte c).supply else s.supply := by
  cases h : transferType (s.chan c).mode <;> simp [moveUnit, h, bumpBptr, memRead, devGet, memWrite, devPut]

theorem moveUnit_draws (s : State) (c : Chan) :
    (s.moveUnit c).draws =
      if transferType (s.chan c).mode = .write then (s.takeCardByte c).draws else s.draws := by
  cases h : transferType (s.chan c).mode <;> simp [moveUnit, h, bumpBptr, memRead, devGet, memWrite, devPut]

/-- The signals of action 2, in order (R58, R133). -/
def moveSignals (s : State) (c : Chan) : List Signal :=
  match transferType (s.chan c).mode with
  | .read => [.memRead (s.phys c 0#16) (s.byteAt (s.phys c 0#16)), .devPut c (s.chan c).bptr (s.byteAt (s.phys c 0#16))]
  | .write => [.devGet c (s.chan c).bptr (s.cardNext c), .memWrite (s.phys c 0#16) (s.cardNext c)]
  | .verify => []
  | .reserved => []

theorem moveUnit_trace (s : State) (c : Chan) : (s.moveUnit c).trace = s.trace ++ s.moveSignals c := by
  cases h : transferType (s.chan c).mode <;>
    simp [moveUnit, moveSignals, h, bumpBptr, memRead, devGet, memWrite, devPut]

/-! #### `transferUnit`: the whole unit -/

/-- Actions 3 and 4 touch nothing but the channel. -/
theorem countedUnit_eq (s : State) (c : Chan) :
    ((s.moveUnit c).advanceAddress c).countDown c = (s.moveUnit c).setChan c (s.chan c).counted := by
  simp [advanceAddress, countDown, moveUnit_chan, Channel.counted, Channel.addressAhead]

/-- One unit as a whole: the counted channel, and at a terminal count what R138 to R141 add. -/
theorem transferUnit_eq (s : State) (c : Chan) :
    s.transferUnit c =
      if isTerminalCount (s.chan c).wcur then ((s.moveUnit c).setChan c (s.chan c).counted).terminalCount c
      else (s.moveUnit c).setChan c (s.chan c).counted := by
  simp [transferUnit, countedUnit_eq]

theorem transferUnit_chan_self (s : State) (c : Chan) : (s.transferUnit c).chan c = (s.chan c).afterUnit := by
  cases htc : isTerminalCount (s.chan c).wcur <;> cases ha : autoinitializes (s.chan c).mode <;>
    cases hf : s.cfg.tcFlagOnAutoinit <;>
    simp [transferUnit_eq, htc, ha, hf, Channel.afterUnit, terminalCount, Channel.counted, signalComplete]

theorem transferUnit_chan_of_ne (s : State) {c d : Chan} (h : d ≠ c) : (s.transferUnit c).chan d = s.chan d := by
  cases htc : isTerminalCount (s.chan c).wcur <;> cases ha : autoinitializes (s.chan c).mode <;>
    cases hf : s.cfg.tcFlagOnAutoinit <;>
    simp [transferUnit_eq, htc, ha, hf, terminalCount, Channel.counted, signalComplete, chan_setChan, moveUnit_chan, h]

/-- `MASK` after a unit (R139). -/
theorem transferUnit_mask (s : State) (c : Chan) :
    (s.transferUnit c).dmac.mask =
      if isTerminalCount (s.chan c).wcur && !autoinitializes (s.chan c).mode then withBit s.dmac.mask c
      else s.dmac.mask := by
  cases htc : isTerminalCount (s.chan c).wcur <;> cases ha : autoinitializes (s.chan c).mode <;>
    cases hf : s.cfg.tcFlagOnAutoinit <;>
    simp [transferUnit_eq, htc, ha, hf, terminalCount, Channel.counted, signalComplete]

/-- `STATUS` after a unit (R138, R139). -/
theorem transferUnit_status (s : State) (c : Chan) :
    (s.transferUnit c).dmac.status =
      if isTerminalCount (s.chan c).wcur && (!autoinitializes (s.chan c).mode || s.cfg.tcFlagOnAutoinit) then
        withTc s.dmac.status c
      else s.dmac.status := by
  cases htc : isTerminalCount (s.chan c).wcur <;> cases ha : autoinitializes (s.chan c).mode <;>
    cases hf : s.cfg.tcFlagOnAutoinit <;>
    simp [transferUnit_eq, htc, ha, hf, terminalCount, Channel.counted, signalComplete]

/-- `REQ` after a unit (R140). -/
theorem transferUnit_req (s : State) (c : Chan) :
    (s.transferUnit c).dmac.req =
      if isTerminalCount (s.chan c).wcur then withoutBit s.dmac.req c else s.dmac.req := by
  cases htc : isTerminalCount (s.chan c).wcur <;> cases ha : autoinitializes (s.chan c).mode <;>
    cases hf : s.cfg.tcFlagOnAutoinit <;>
    simp [transferUnit_eq, htc, ha, hf, terminalCount, Channel.counted, signalComplete]

@[simp] theorem transferUnit_cmd (s : State) (c : Chan) : (s.transferUnit c).dmac.cmd = s.dmac.cmd := by
  cases htc : isTerminalCount (s.chan c).wcur <;> cases ha : autoinitializes (s.chan c).mode <;>
    cases hf : s.cfg.tcFlagOnAutoinit <;>
    simp [transferUnit_eq, htc, ha, hf, terminalCount, Channel.counted, signalComplete]

@[simp] theorem transferUnit_bff (s : State) (c : Chan) : (s.transferUnit c).dmac.bff = s.dmac.bff := by
  cases htc : isTerminalCount (s.chan c).wcur <;> cases ha : autoinitializes (s.chan c).mode <;>
    cases hf : s.cfg.tcFlagOnAutoinit <;>
    simp [transferUnit_eq, htc, ha, hf, terminalCount, Channel.counted, signalComplete]

@[simp] theorem transferUnit_last (s : State) (c : Chan) : (s.transferUnit c).dmac.last = s.dmac.last := by
  cases htc : isTerminalCount (s.chan c).wcur <;> cases ha : autoinitializes (s.chan c).mode <;>
    cases hf : s.cfg.tcFlagOnAutoinit <;>
    simp [transferUnit_eq, htc, ha, hf, terminalCount, Channel.counted, signalComplete]

@[simp] theorem transferUnit_cfg (s : State) (c : Chan) : (s.transferUnit c).cfg = s.cfg := by
  cases htc : isTerminalCount (s.chan c).wcur <;> cases ha : autoinitializes (s.chan c).mode <;>
    cases hf : s.cfg.tcFlagOnAutoinit <;>
    simp [transferUnit_eq, htc, ha, hf, terminalCount, Channel.counted, signalComplete]

@[simp] theorem transferUnit_inputs (s : State) (c : Chan) : (s.transferUnit c).inputs = s.inputs := by
  cases htc : isTerminalCount (s.chan c).wcur <;> cases ha : autoinitializes (s.chan c).mode <;>
    cases hf : s.cfg.tcFlagOnAutoinit <;>
    simp [transferUnit_eq, htc, ha, hf, terminalCount, Channel.counted, signalComplete]

/-- Actions 3 to 6 leave memory, the supply and the counter of free bytes to action 2. -/
theorem transferUnit_mem (s : State) (c : Chan) : (s.transferUnit c).mem = (s.moveUnit c).mem := by
  cases htc : isTerminalCount (s.chan c).wcur <;> cases ha : autoinitializes (s.chan c).mode <;>
    cases hf : s.cfg.tcFlagOnAutoinit <;>
    simp [transferUnit_eq, htc, ha, hf, terminalCount, Channel.counted, signalComplete]

theorem transferUnit_supply (s : State) (c : Chan) : (s.transferUnit c).supply = (s.moveUnit c).supply := by
  cases htc : isTerminalCount (s.chan c).wcur <;> cases ha : autoinitializes (s.chan c).mode <;>
    cases hf : s.cfg.tcFlagOnAutoinit <;>
    simp [transferUnit_eq, htc, ha, hf, terminalCount, Channel.counted, signalComplete]

theorem transferUnit_draws (s : State) (c : Chan) : (s.transferUnit c).draws = (s.moveUnit c).draws := by
  cases htc : isTerminalCount (s.chan c).wcur <;> cases ha : autoinitializes (s.chan c).mode <;>
    cases hf : s.cfg.tcFlagOnAutoinit <;>
    simp [transferUnit_eq, htc, ha, hf, terminalCount, Channel.counted, signalComplete]

/-- The trace after a unit: the signals of action 2, then one completion at a terminal count, with the byte pointer the
channel is left with (R58, R141). -/
theorem transferUnit_trace (s : State) (c : Chan) :
    (s.transferUnit c).trace =
      s.trace ++ s.moveSignals c ++ completion (s.chan c).wcur c (s.chan c).afterUnit.bptr := by
  cases htc : isTerminalCount (s.chan c).wcur <;> cases ha : autoinitializes (s.chan c).mode <;>
    cases hf : s.cfg.tcFlagOnAutoinit <;>
    simp_all [transferUnit_eq, terminalCount, Channel.counted, Channel.afterUnit, signalComplete, moveUnit_trace,
      completion, isTerminalCount]

end State

/-- The engine admits a channel exactly when `Admitted` says so (R132). -/
theorem admission_eq_none {s : State} {c : Chan} : s.admission c = none ↔ Admitted s c := by
  unfold State.admission Admitted
  simp only [ne_eq, ← transferType_eq_reserved, ← transferMode_eq_cascade]
  generalize s.cfg.cards[c] = card
  cases card <;> by_cases h2 : transferType (s.chan c).mode = .reserved <;>
    by_cases h3 : transferMode (s.chan c).mode = .cascade <;> simp [h2, h3]

/-- One step of the engine on an admitted channel (R130). -/
theorem engineStep_admitted {s : State} {c : Chan} (h : Admitted s c) : engineStep c s = .next (s.transferUnit c) := by
  rw [engineStep, unlessFault_eq_next]
  exact ⟨admission_eq_none.mpr h, rfl⟩

end Sys2Proof.Machine
end

