-- ==== Sys2Proof/Laws/Scheduler.lean ====
section
/-! SUPPORT. Everything a tick can do (44_service_scheduler.md R150): one inversion lemma for the tick, and the laws of the
two priority policies. -/

namespace Sys2Proof.Machine

open Sys2Proof

/-- The flagging of requests changes `STATUS` alone. -/
@[simp] theorem State.flagRequests_chan (s : State) (q : Nibble) (c : Chan) : (s.flagRequests q).chan c = s.chan c := rfl

@[simp] theorem State.flagRequests_mem (s : State) (q : Nibble) : (s.flagRequests q).mem = s.mem := rfl

@[simp] theorem State.flagRequests_cfg (s : State) (q : Nibble) : (s.flagRequests q).cfg = s.cfg := rfl

@[simp] theorem State.flagRequests_inputs (s : State) (q : Nibble) : (s.flagRequests q).inputs = s.inputs := rfl

@[simp] theorem State.flagRequests_supply (s : State) (q : Nibble) : (s.flagRequests q).supply = s.supply := rfl

@[simp] theorem State.flagRequests_draws (s : State) (q : Nibble) : (s.flagRequests q).draws = s.draws := rfl

@[simp] theorem State.flagRequests_trace (s : State) (q : Nibble) : (s.flagRequests q).trace = s.trace := rfl

@[simp] theorem State.flagRequests_cmd (s : State) (q : Nibble) : (s.flagRequests q).dmac.cmd = s.dmac.cmd := rfl

@[simp] theorem State.flagRequests_req (s : State) (q : Nibble) : (s.flagRequests q).dmac.req = s.dmac.req := rfl

@[simp] theorem State.flagRequests_mask (s : State) (q : Nibble) : (s.flagRequests q).dmac.mask = s.dmac.mask := rfl

@[simp] theorem State.flagRequests_bff (s : State) (q : Nibble) : (s.flagRequests q).dmac.bff = s.dmac.bff := rfl

@[simp] theorem State.flagRequests_last (s : State) (q : Nibble) : (s.flagRequests q).dmac.last = s.dmac.last := rfl

@[simp] theorem State.flagRequests_status (s : State) (q : Nibble) :
    (s.flagRequests q).dmac.status = withRequests s.dmac.status (s.eligibleAt q) := rfl

@[simp] theorem State.flagRequests_phys (s : State) (q : Nibble) (c : Chan) (off : Word) :
    (s.flagRequests q).phys c off = s.phys c off := rfl

@[simp] theorem State.flagRequests_byteAt (s : State) (q : Nibble) (a : PhysAddr) :
    (s.flagRequests q).byteAt a = s.byteAt a := rfl

@[simp] theorem State.flagRequests_cardNext (s : State) (q : Nibble) (c : Chan) :
    (s.flagRequests q).cardNext c = s.cardNext c := rfl

@[simp] theorem State.flagRequests_admission (s : State) (q : Nibble) (c : Chan) :
    (s.flagRequests q).admission c = s.admission c := rfl

/-- The eligible set, bit by bit (R152). -/
theorem bitOf_eligibleAt (s : State) (q : Nibble) (c : Chan) : bitOf (s.eligibleAt q) c = true ↔ EligibleAt s q c := by
  rw [State.eligibleAt, bitOf_eligible]
  simp [EligibleAt, lineOf]

/-- A fixed pick is the least eligible channel (R155). -/
theorem fixedPick_eq_some (e : Nibble) (c : Chan) :
    fixedPick e = some c ↔ bitOf e c = true ∧ ∀ d, d < c → bitOf e d = false := by
  revert e c; decide

/-- A rotating pick is the eligible channel nearest after the last serviced one (R156). -/
theorem rotatingPick_eq_some (e : Nibble) (last c : Chan) :
    rotatingPick e last = some c ↔ bitOf e c = true ∧ ∀ d, bitOf e d = true → c - last - 1 ≤ d - last - 1 := by
  revert e last c; decide

/-- Either policy picks nothing exactly when no channel is eligible. -/
theorem fixedPick_eq_none (e : Nibble) : fixedPick e = none ↔ e = 0#4 := by
  revert e; decide

theorem rotatingPick_eq_none (e : Nibble) (last : Chan) : rotatingPick e last = none ↔ e = 0#4 := by
  revert e last; decide

theorem selectAt_eq_none (s : State) (q : Nibble) : s.selectAt q = none ↔ s.eligibleAt q = 0#4 := by
  unfold State.selectAt
  split
  · exact rotatingPick_eq_none _ _
  · exact fixedPick_eq_none _

/-- A selected channel is eligible. -/
theorem eligible_of_selectAt {s : State} {q : Nibble} {c : Chan} (h : s.selectAt q = some c) : EligibleAt s q c := by
  rw [← bitOf_eligibleAt]
  unfold State.selectAt at h
  split at h
  · exact ((rotatingPick_eq_some _ _ _).mp h).1
  · exact ((fixedPick_eq_some _ _).mp h).1

/-- A channel that alone is eligible is selected, under either policy. -/
theorem selectAt_of_only {s : State} {q : Nibble} {c : Chan} (h : EligibleAt s q c)
    (hother : ∀ d, d ≠ c → ¬ EligibleAt s q d) : s.selectAt q = some c := by
  cases hs : s.selectAt q with
  | none =>
    rw [selectAt_eq_none] at hs
    rw [← bitOf_eligibleAt, hs] at h
    simp [bitOf] at h
  | some d =>
    by_cases hd : d = c
    · rw [hd]
    · exact absurd (eligible_of_selectAt hs) (hother d hd)

/-- A tick with nothing to service changes nothing (R151, R154). -/
theorem execTick_idle {s : State} {q : Nibble} (h : enabled s.dmac.cmd = false ∨ s.eligibleAt q = 0#4) :
    execTick q s = .next s := by
  unfold execTick
  cases hen : enabled s.dmac.cmd with
  | false => rfl
  | true =>
    have he : s.eligibleAt q = 0#4 := by
      rcases h with h | h
      · simp [hen] at h
      · exact h
    rw [if_pos rfl, (selectAt_eq_none s q).mpr he]
    have : s.flagRequests q = s := by
      have hw : ∀ b : Byte, withRequests b 0#4 = b := by decide
      simp [State.flagRequests, State.setStatus, he, hw]
    simp [this]

/-- A tick that services a channel is one unit of that channel on the flagged state, and `LAST` is that channel
(R150, R157). -/
theorem execTick_services {s : State} {q : Nibble} {c : Chan} (h : Services s q c) :
    execTick q s = .next (((s.flagRequests q).transferUnit c).setLast c) := by
  obtain ⟨hen, hsel, hadm⟩ := h
  have hen' : enabled s.dmac.cmd = true := hen
  rw [execTick, if_pos hen', hsel]
  have : engineStep c (s.flagRequests q) = .next ((s.flagRequests q).transferUnit c) :=
    engineStep_admitted hadm
  simp [this]

/-- All a tick can do: nothing, one unit of the channel it services, or the fault that channel is not admitted with. -/
theorem execTick_cases (q : Nibble) (s : State) :
    ((enabled s.dmac.cmd = false ∨ s.eligibleAt q = 0#4) ∧ execTick q s = .next s) ∨
    (∃ c, Services s q c ∧ execTick q s = .next (((s.flagRequests q).transferUnit c).setLast c)) ∨
    (∃ c f, enabled s.dmac.cmd = true ∧ s.selectAt q = some c ∧ s.admission c = some f ∧ execTick q s = .fault f) := by
  cases hen : enabled s.dmac.cmd with
  | false => exact .inl ⟨.inl rfl, execTick_idle (.inl hen)⟩
  | true =>
    cases hsel : s.selectAt q with
    | none =>
      have he := (selectAt_eq_none s q).mp hsel
      exact .inl ⟨.inr he, execTick_idle (.inr he)⟩
    | some c =>
      cases hadm : s.admission c with
      | none =>
        have hs : Services s q c := ⟨hen, hsel, admission_eq_none.mp hadm⟩
        exact .inr (.inl ⟨c, hs, execTick_services hs⟩)
      | some f =>
        refine .inr (.inr ⟨c, f, rfl, rfl, hadm, ?_⟩)
        rw [execTick, if_pos hen, hsel]
        simp [engineStep, hadm, unlessFault]

end Sys2Proof.Machine
end

