-- ==== Sys2Proof/Laws/Exec.lean ====
section
/-! SUPPORT. What each operation can do, said once: `Effect` lists the next state of every operation in terms of the shared
operations, `effect_of_exec` and `step_cases` are what later proofs take apart, and the counts over a trace distribute over
its parts. -/

namespace Sys2Proof.Machine

open Sys2Proof

/-- The next states of `exec`, one case per operation and two for the tick. -/
inductive Effect (s : State) : Instr → State → Prop where
  | rdAddr (c : Chan) :
      Effect s (.rdAddr c) (s.toggleBff.emit (.portRead (selectByte s.dmac.bff (s.chan c).acur)))
  | wrAddr (c : Chan) (b : Byte) : s.checkNotArmed c .addr b = none →
      Effect s (.wrAddr c b)
        (s.setChan c { s.chan c with abase := insertByte s.dmac.bff (s.chan c).abase b, acur := insertByte s.dmac.bff (s.chan c).abase b, bptr := 0x0000#16 }).toggleBff
  | rdWc (c : Chan) :
      Effect s (.rdWc c) (s.toggleBff.emit (.portRead (selectByte s.dmac.bff (s.chan c).wcur)))
  | wrWc (c : Chan) (b : Byte) : s.checkNotArmed c .wc b = none →
      Effect s (.wrWc c b)
        (s.setChan c { s.chan c with wbase := insertByte s.dmac.bff (s.chan c).wbase b, wcur := insertByte s.dmac.bff (s.chan c).wbase b, bptr := 0x0000#16 }).toggleBff
  | rdPage (c : Chan) : Effect s (.rdPage c) (s.emit (.portRead (s.chan c).page))
  | wrPage (c : Chan) (b : Byte) : Effect s (.wrPage c b) (s.setChan c { s.chan c with page := b })
  | wrMode (c : Chan) (b : Byte) : s.checkNotArmed c .mode b = none →
      Effect s (.wrMode c b) (s.setChan c { s.chan c with mode := b })
  | rdCmd : Effect s .rdCmd (s.emit (.portRead s.dmac.cmd))
  | wrCmd (b : Byte) : Effect s (.wrCmd b) (s.setCmd b)
  | rdReq : Effect s .rdReq (s.emit (.portRead (zext8 s.dmac.req)))
  | wrReq (b : Byte) : s.checkRequests b = none → Effect s (.wrReq b) (s.setReq (lowNibble b))
  | rdMask : Effect s .rdMask (s.emit (.portRead (zext8 s.dmac.mask)))
  | wrMask (b : Byte) : Effect s (.wrMask b) (s.setMask (lowNibble b))
  | rdStatus : Effect s .rdStatus ((s.setStatus 0x00#8).emit (.portRead s.dmac.status))
  | wrClrff (b : Byte) : Effect s (.wrClrff b) (s.setBff false)
  | idle (q : Nibble) : enabled s.dmac.cmd = false ∨ s.eligibleAt q = 0#4 → Effect s (.tick q) s
  | service (q : Nibble) (c : Chan) : Services s q c →
      Effect s (.tick q) (((s.flagRequests q).transferUnit c).setLast c)
  | reset : Effect s .reset { s with dmac := resetRegisters }

/-- Every next state of an operation is one of the listed ones. -/
theorem effect_of_exec {i : Instr} {s t : State} (h : exec i s = .next t) : Effect s i t := by
  cases i with
  | tick q =>
    rcases execTick_cases q s with ⟨h1, h2⟩ | ⟨d, hs, h2⟩ | ⟨d, g, _, _, _, h2⟩ <;> cases h.symm.trans h2
    · exact .idle q h1
    · exact .service q d hs
  | wrAddr c b => obtain ⟨hc, rfl⟩ := unlessFault_eq_next.mp h; exact .wrAddr c b hc
  | wrWc c b => obtain ⟨hc, rfl⟩ := unlessFault_eq_next.mp h; exact .wrWc c b hc
  | wrMode c b => obtain ⟨hc, rfl⟩ := unlessFault_eq_next.mp h; exact .wrMode c b hc
  | wrReq b => obtain ⟨hc, rfl⟩ := unlessFault_eq_next.mp h; exact .wrReq b hc
  | rdAddr c => cases h; exact .rdAddr c
  | rdWc c => cases h; exact .rdWc c
  | rdPage c => cases h; exact .rdPage c
  | wrPage c b => cases h; exact .wrPage c b
  | rdCmd => cases h; exact .rdCmd
  | wrCmd b => cases h; exact .wrCmd b
  | rdReq => cases h; exact .rdReq
  | rdMask => cases h; exact .rdMask
  | wrMask b => cases h; exact .wrMask b
  | rdStatus => cases h; exact .rdStatus
  | wrClrff b => cases h; exact .wrClrff b
  | reset => cases h; exact .reset

/-- No operation changes the configuration or the inputs to come. -/
theorem exec_cfg_inputs {i : Instr} {s t : State} (h : exec i s = .next t) : t.cfg = s.cfg ∧ t.inputs = s.inputs := by
  cases effect_of_exec h with
  | service q c => simp
  | _ => exact ⟨rfl, rfl⟩

/-- What a step that answers a state has done with the queue. -/
theorem step_cases {s t : State} (h : step s = .next t) :
    (s.inputs = [] ∧ t = s) ∨
    (∃ w rest i, s.inputs = .op w :: rest ∧ decode s.cfg.portMap w = .instr i ∧
      exec i { s with inputs := rest } = .next t) ∨
    (∃ a v rest, s.inputs = .cpuStore a v :: rest ∧ t = ({ s with inputs := rest } : State).setByte a v) ∨
    (∃ a rest, s.inputs = .cpuLoad a :: rest ∧
      t = ({ s with inputs := rest } : State).emit (.cpuLoad a (s.byteAt a))) := by
  unfold step runNext at h
  split at h
  · next e => cases h; exact .inl ⟨e, rfl⟩
  · next x rest e =>
    cases x with
    | op w =>
      simp only [runInput, runWord] at h
      split at h
      · next i hi => exact .inr (.inl ⟨w, rest, i, e, hi, h⟩)
      · cases h
    | cpuStore a v => cases h; exact .inr (.inr (.inl ⟨a, v, rest, e, rfl⟩))
    | cpuLoad a => cases h; exact .inr (.inr (.inr ⟨a, rest, e, rfl⟩))

/-- A tick word decodes to its tick under every port map (R64). -/
theorem decode_tickWord (pm : PortMap) (q : Nibble) : decode pm (tickWord q) = .instr (.tick q) := by
  have hk : (tickWord q).kind = 0b01#2 := by revert q; decide
  have hz : (tickWord q).extractLsb' 4 10 = 0#10 := by revert q; decide
  have hq : (tickWord q).extractLsb' 0 4 = q := by revert q; decide
  simp [decode, hk, hz, hq]

/-- A tick at the head of the queue runs. -/
theorem step_tick {s : State} {pm : PortMap} {q : Nibble} {rest : List Input}
    (h : s.inputs = .op (encode pm (.tick q)) :: rest) : step s = exec (.tick q) { s with inputs := rest } := by
  rw [step_op h, show encode pm (.tick q) = tickWord q from rfl]
  simp [runWord, decode_tickWord]

/-- Completions are counted part by part. -/
@[simp] theorem completions_append (c : Chan) (l m : List Signal) :
    completions c (l ++ m) = completions c l + completions c m := by
  induction l with
  | nil => simp [completions]
  | cons x l ih => cases x <;> simp [completions, ih, Nat.add_assoc]

/-- Bytes given to a card are collected part by part. -/
@[simp] theorem putBytes_append (c : Chan) (l m : List Signal) : putBytes c (l ++ m) = putBytes c l ++ putBytes c m := by
  induction l with
  | nil => simp [putBytes]
  | cons x l ih => cases x <;> simp [putBytes, ih]; split <;> simp

/-- Moving a byte completes nothing. -/
@[simp] theorem completions_moveSignals (c d : Chan) (s : State) : completions c (s.moveSignals d) = 0 := by
  unfold State.moveSignals; split <;> simp [completions]

@[simp] theorem completions_completion (c d : Chan) (w p : Word) :
    completions c (completion w d p) = if w = 0x0000#16 ∧ d = c then 1 else 0 := by
  unfold completion
  by_cases hw : w = 0x0000#16 <;> by_cases hd : d = c <;> simp [hw, hd, completions]

/-- A completion gives no card a byte. -/
@[simp] theorem putBytes_completion (c d : Chan) (w p : Word) : putBytes c (completion w d p) = [] := by
  unfold completion; split <;> simp [putBytes]

end Sys2Proof.Machine
end

