-- ==== Sys2Proof/Laws/PerInstr.lean ====
section
/-! SUPPORT. The per-instruction law families of LAWS.json. `EncodedKind`: the word of every operation carries the `KIND`
bits of its group (30_encoding.md R62). -/

namespace Sys2Proof.Laws.EncodedKind

open Sys2Proof

/-- The `KIND` of an operation (R62): `0b00` a port access, `0b01` the tick, `0b10` reset. -/
def kindOf : Instr → BitVec 2
  | .rdAddr _ => 0b00#2
  | .wrAddr _ _ => 0b00#2
  | .rdWc _ => 0b00#2
  | .wrWc _ _ => 0b00#2
  | .rdPage _ => 0b00#2
  | .wrPage _ _ => 0b00#2
  | .wrMode _ _ => 0b00#2
  | .rdCmd => 0b00#2
  | .wrCmd _ => 0b00#2
  | .rdReq => 0b00#2
  | .wrReq _ => 0b00#2
  | .rdMask => 0b00#2
  | .wrMask _ => 0b00#2
  | .rdStatus => 0b00#2
  | .wrClrff _ => 0b00#2
  | .tick _ => 0b01#2
  | .reset => 0b10#2

/-- Under every port map, the operation's word has the operation's kind. -/
def Statement (i : Instr) : Prop := ∀ pm : PortMap, (encode pm i).kind = kindOf i

theorem rdAddr (c : Chan) : Statement (.rdAddr c) := fun _ => kind_accessWord _ _ _

theorem wrAddr (c : Chan) (b : Byte) : Statement (.wrAddr c b) := fun _ => kind_accessWord _ _ _

theorem rdWc (c : Chan) : Statement (.rdWc c) := fun _ => kind_accessWord _ _ _

theorem wrWc (c : Chan) (b : Byte) : Statement (.wrWc c b) := fun _ => kind_accessWord _ _ _

theorem rdPage (c : Chan) : Statement (.rdPage c) := fun _ => kind_accessWord _ _ _

theorem wrPage (c : Chan) (b : Byte) : Statement (.wrPage c b) := fun _ => kind_accessWord _ _ _

theorem wrMode (c : Chan) (b : Byte) : Statement (.wrMode c b) := fun _ => kind_accessWord _ _ _

theorem rdCmd : Statement (.rdCmd) := fun _ => kind_accessWord _ _ _

theorem wrCmd (b : Byte) : Statement (.wrCmd b) := fun _ => kind_accessWord _ _ _

theorem rdReq : Statement (.rdReq) := fun _ => kind_accessWord _ _ _

theorem wrReq (b : Byte) : Statement (.wrReq b) := fun _ => kind_accessWord _ _ _

theorem rdMask : Statement (.rdMask) := fun _ => kind_accessWord _ _ _

theorem wrMask (b : Byte) : Statement (.wrMask b) := fun _ => kind_accessWord _ _ _

theorem rdStatus : Statement (.rdStatus) := fun _ => kind_accessWord _ _ _

theorem wrClrff (b : Byte) : Statement (.wrClrff b) := fun _ => kind_accessWord _ _ _

theorem tick (q : Nibble) : Statement (.tick q) := by
  intro pm
  show (tickWord q).kind = 0b01#2
  revert q; decide

theorem reset : Statement (.reset) := by
  intro pm
  show resetWord.kind = 0b10#2
  decide

end Sys2Proof.Laws.EncodedKind
end

