-- ==== Sys2Proof/Laws/Progress.lean ====
section
/-! SUPPORT. One tick of a run in which a single channel is serviced, in the form an induction over the run takes: the state
it leads to, and that short of a terminal count the conditions for the next tick hold again. -/

namespace Sys2Proof.Machine

open Sys2Proof

theorem ticks_cons (pm : PortMap) (q : Nibble) (qs : List Nibble) (rest : List Input) :
    ticks pm (q :: qs) ++ rest = .op (encode pm (.tick q)) :: (ticks pm qs ++ rest) := rfl

theorem ticks_append (pm : PortMap) (qs rs : List Nibble) (rest : List Input) :
    ticks pm (qs ++ rs) ++ rest = ticks pm qs ++ (ticks pm rs ++ rest) := by
  simp [ticks, inputsOf]

/-- The state after a tick with lines `q` that services channel `c`, with `rest` left in the queue. -/
def State.afterTick (s : State) (q : Nibble) (c : Chan) (rest : List Input) : State :=
  ((({ s with inputs := rest } : State).flagRequests q).transferUnit c).setLast c

/-- A tick at which `c` alone is eligible, of an enabled controller that admits it, services `c`. -/
theorem step_afterTick {s : State} {pm : PortMap} {q : Nibble} {c : Chan} {rest : List Input}
    (hen : s.dmac.cmd.getLsbD 2 = true) (ho : OnlyEligible s q c) (ha : Admitted s c)
    (hi : s.inputs = .op (encode pm (.tick q)) :: rest) : step s = .next (s.afterTick q c rest) := by
  rw [step_tick hi]
  exact execTick_services ⟨hen, selectAt_of_only ho.1 ho.2, ha⟩

namespace State

variable (s : State) (q : Nibble) (c : Chan) (rest : List Input)

@[simp] theorem afterTick_cmd : (s.afterTick q c rest).dmac.cmd = s.dmac.cmd := by simp [afterTick]

@[simp] theorem afterTick_cfg : (s.afterTick q c rest).cfg = s.cfg := by simp [afterTick]

@[simp] theorem afterTick_inputs : (s.afterTick q c rest).inputs = rest := by simp [afterTick]

@[simp] theorem afterTick_last : (s.afterTick q c rest).dmac.last = c := rfl

@[simp] theorem afterTick_chan_self : (s.afterTick q c rest).chan c = (s.chan c).afterUnit := by
  simp only [afterTick, setLast_chan, transferUnit_chan_self]; rfl

theorem afterTick_chan_of_ne {d : Chan} (h : d ≠ c) : (s.afterTick q c rest).chan d = s.chan d := by
  simp only [afterTick, setLast_chan, transferUnit_chan_of_ne _ h]; rfl

theorem afterTick_mask :
    (s.afterTick q c rest).dmac.mask =
      if isTerminalCount (s.chan c).wcur && !autoinitializes (s.chan c).mode then withBit s.dmac.mask c
      else s.dmac.mask := by
  simp only [afterTick, setLast_mask, transferUnit_mask]; rfl

theorem afterTick_req :
    (s.afterTick q c rest).dmac.req =
      if isTerminalCount (s.chan c).wcur then withoutBit s.dmac.req c else s.dmac.req := by
  simp only [afterTick, setLast_req, transferUnit_req]; rfl

theorem afterTick_trace :
    (s.afterTick q c rest).trace =
      s.trace ++ s.moveSignals c ++ completion (s.chan c).wcur c (s.chan c).afterUnit.bptr := by
  simp only [afterTick, setLast_trace, transferUnit_trace]; rfl

theorem afterTick_mem :
    (s.afterTick q c rest).mem =
      if transferType (s.chan c).mode = .write then s.mem.write (s.phys c 0#16).toNat (s.cardNext c) else s.mem := by
  simp only [afterTick, setLast_mem, transferUnit_mem, moveUnit_mem]; rfl

theorem afterTick_supply :
    (s.afterTick q c rest).supply =
      if transferType (s.chan c).mode = .write then s.supply.set c s.supply[c].tail else s.supply := by
  simp only [afterTick, setLast_supply, transferUnit_supply, moveUnit_supply, takeCardByte_supply]; rfl

/-- Short of a terminal count the channel is left counted, and it alone is eligible and admitted again. -/
theorem afterTick_continues {s : State} {q : Nibble} {c : Chan} {rest : List Input} (h : (s.chan c).wcur ≠ 0x0000#16)
    (ho : OnlyEligible s q c) (ha : Admitted s c) :
    (s.afterTick q c rest).chan c = (s.chan c).counted ∧ (s.afterTick q c rest).dmac.mask = s.dmac.mask ∧
      (s.afterTick q c rest).dmac.req = s.dmac.req ∧ OnlyEligible (s.afterTick q c rest) q c ∧
      Admitted (s.afterTick q c rest) c := by
  have h0 := (isTerminalCount_eq_false _).mpr h
  have hc : (s.afterTick q c rest).chan c = (s.chan c).counted := by
    rw [afterTick_chan_self, Channel.afterUnit_counted (.inl h)]
  have hm : (s.afterTick q c rest).dmac.mask = s.dmac.mask := by simp [afterTick_mask, h0]
  have hr : (s.afterTick q c rest).dmac.req = s.dmac.req := by simp [afterTick_req, h0]
  refine ⟨hc, hm, hr, ?_, ?_⟩
  · unfold OnlyEligible EligibleAt
    rw [hm, hr]
    exact ho
  · unfold Admitted
    rw [afterTick_cfg, hc]
    exact ha

end State

/-- A count that is not zero goes down by one (R136). -/
theorem Channel.toNat_counted_wcur {ch : Channel} (h : ch.wcur ≠ 0x0000#16) :
    ch.counted.wcur.toNat = ch.wcur.toNat - 1 := by
  have h0 : ch.wcur.toNat ≠ 0 := fun e => h (BitVec.eq_of_toNat_eq (by simpa using e))
  have := ch.wcur.isLt
  simp [Channel.counted, BitVec.toNat_sub]
  omega

/-- `n` units on from a counted channel are `n + 1` units on from where it was (R135, R143). -/
theorem Channel.addressAfter_counted (ch : Channel) {n : Nat} (h : n < 2 ^ 16) :
    addressAfter ch.counted n = addressAfter ch (n + 1) := by
  have h1 : ch.counted.mode = ch.mode := rfl
  have h2 : ch.counted.acur.toNat = addressAfter ch 1 := Channel.toNat_addressAhead ch 1
  have := ch.acur.isLt
  unfold addressAfter at *
  rw [h1, h2]
  split <;> omega

/-- After a unit that is no terminal count, the `i`-th address ahead is the `i + 1`-st from before it (R47, R120). -/
theorem State.phys_afterTick {s : State} {q : Nibble} {c : Chan} {rest : List Input} (h : (s.chan c).wcur ≠ 0x0000#16)
    {i : Nat} (hi : i < 2 ^ 16) :
    (s.afterTick q c rest).phys c (BitVec.ofNat 16 i) = s.phys c (BitVec.ofNat 16 (i + 1)) := by
  unfold State.phys Channel.phys
  rw [afterTick_chan_self, Channel.afterUnit_counted (.inl h)]
  congr 1
  apply BitVec.eq_of_toNat_eq
  have e : (BitVec.ofNat 16 i).toNat = i := by simp; omega
  rw [Channel.toNat_addressAhead, Channel.toNat_addressAhead, e, Channel.addressAfter_counted _ hi]
  have := (s.chan c).acur.isLt
  unfold addressAfter
  simp
  split <;> omega

/-- Fewer than 2^16 units ahead the addresses are all different (R122). -/
theorem State.phys_ne {s : State} {c : Chan} {i j : Nat} (hi : i < 2 ^ 16) (hj : j < 2 ^ 16) (h : i ≠ j) :
    s.phys c (BitVec.ofNat 16 i) ≠ s.phys c (BitVec.ofNat 16 j) := by
  have hp : ∀ o, (s.phys c o).toNat % 2 ^ 16 = addressAfter (s.chan c) o.toNat := by
    intro o
    have hlt : addressAfter (s.chan c) o.toNat < 2 ^ 16 := by unfold addressAfter; split <;> omega
    unfold State.phys Channel.phys
    rw [BitVec.toNat_append, Channel.toNat_addressAhead, ← Nat.shiftLeft_add_eq_or_of_lt hlt, Nat.shiftLeft_eq]
    omega
  intro e
  have he := congrArg (fun a : PhysAddr => a.toNat % 2 ^ 16) e
  simp only [hp] at he
  have := (s.chan c).acur.isLt
  unfold addressAfter at he
  simp at he
  split at he <;> omega

end Sys2Proof.Machine
end

