-- ==== Sys2Proof/Laws/Runs.lean ====
section
/-! SUPPORT. What holds between the steps of a channel in a run of any kind: the trace only grows, a byte of memory that
nothing is stored to stays, a channel that is neither serviced nor reprogrammed keeps the registers its steps work on. -/

namespace Sys2Proof.Machine

open Sys2Proof

/-- The trace only grows: an operation puts its signals at the end. -/
theorem exec_trace {i : Instr} {s t : State} (h : exec i s = .next t) : ∃ l, t.trace = s.trace ++ l := by
  cases effect_of_exec h with
  | service q c hs =>
    exact ⟨(s.flagRequests q).moveSignals c ++ completion (s.chan c).wcur c (s.chan c).afterUnit.bptr,
      by simp [State.transferUnit_trace]⟩
  | rdAddr c => exact ⟨_, rfl⟩
  | rdWc c => exact ⟨_, rfl⟩
  | rdPage c => exact ⟨_, rfl⟩
  | rdCmd => exact ⟨_, rfl⟩
  | rdReq => exact ⟨_, rfl⟩
  | rdMask => exact ⟨_, rfl⟩
  | rdStatus => exact ⟨_, rfl⟩
  | _ => exact ⟨[], (List.append_nil _).symm⟩

/-- So does every step. -/
theorem step_trace {s t : State} (h : step s = .next t) : ∃ l, t.trace = s.trace ++ l := by
  rcases step_cases h with ⟨_, rfl⟩ | ⟨_, rest, _, _, _, he⟩ | ⟨_, _, _, _, rfl⟩ | ⟨_, _, _, rfl⟩
  · exact ⟨[], (List.append_nil _).symm⟩
  · exact exec_trace (s := { s with inputs := rest }) he
  · exact ⟨[], (List.append_nil _).symm⟩
  · exact ⟨_, rfl⟩

/-- So does every run. -/
theorem runs_trace {k : Nat} {s t : State} (h : Runs k s t) : ∃ l, t.trace = s.trace ++ l := by
  induction k generalizing s with
  | zero => exact ⟨[], by simp [(runs_zero s t).mp h]⟩
  | succ k ih =>
    obtain ⟨u, hu, ht⟩ := (runs_succ k s t).mp h
    obtain ⟨l, hl⟩ := step_trace hu
    obtain ⟨m, hm⟩ := ih ht
    exact ⟨l ++ m, by rw [hm, hl, List.append_assoc]⟩

/-- A byte at an address that an operation signals no store to is as it was (R45, R46). -/
theorem exec_byteAt {i : Instr} {s t : State} {a : PhysAddr} {l : List Signal} (h : exec i s = .next t)
    (hl : t.trace = s.trace ++ l) (ha : ∀ w, Signal.memWrite a w ∉ l) : t.byteAt a = s.byteAt a := by
  cases effect_of_exec h with
  | service q c hs =>
    have ht : ((s.flagRequests q).transferUnit c).setLast c = s.afterTick q c s.inputs := rfl
    rw [ht, State.afterTick_trace, List.append_assoc] at hl
    rw [ht, State.byteAt, State.byteAt, State.afterTick_mem]
    split
    · next hw =>
      refine Memory.read_write_other _ _ fun e => ha (s.cardNext c) ?_
      rw [← List.append_cancel_left hl, BitVec.eq_of_toNat_eq e]
      simp [State.moveSignals, hw]
    · rfl
  | _ => rfl

/-- A step that services a channel is one tick of it (R150). -/
theorem step_service {c : Chan} {s t : State} {q : Nibble} (hr : RunsNext s (.tick q)) (hs : Services s q c)
    (h : step s = .next t) : ∃ rest, t = s.afterTick q c rest := by
  obtain ⟨w, rest, hi, hd⟩ := hr
  have he := step_op hi
  rw [runWord, show ({ s with inputs := rest } : State).cfg = s.cfg from rfl, hd] at he
  have ht := he.trans (execTick_services (s := { s with inputs := rest }) hs)
  cases h.symm.trans ht
  exact ⟨rest, rfl⟩

/-- What a channel's steps work on is the same: count, address, base registers, mode, and its completions so far. -/
structure SameTransfer (c : Chan) (s t : State) : Prop where
  wcur  : (t.chan c).wcur = (s.chan c).wcur
  acur  : (t.chan c).acur = (s.chan c).acur
  abase : (t.chan c).abase = (s.chan c).abase
  wbase : (t.chan c).wbase = (s.chan c).wbase
  mode  : (t.chan c).mode = (s.chan c).mode
  done  : completions c t.trace = completions c s.trace

/-- An operation that neither services nor reprograms a channel leaves that the same (R16, R36). -/
theorem exec_sameTransfer {c : Chan} {i : Instr} {s t : State} (hr : ¬ Reprograms c i)
    (hs : ∀ q, i = .tick q → ¬ Services s q c) (h : exec i s = .next t) : SameTransfer c s t := by
  cases effect_of_exec h with
  | service q d hd =>
    have hne : c ≠ d := fun e => hs q rfl (e ▸ hd)
    constructor <;> simp [State.transferUnit_chan_of_ne _ hne, State.transferUnit_trace, Ne.symm hne]
  | reset => exact absurd (.inl rfl) hr
  | wrAddr d b | wrWc d b | wrMode d b =>
    have hne : ¬ c = d := by rintro rfl; exact hr (.inr ⟨b, by simp⟩)
    constructor <;> simp [State.chan_setChan, hne]
  | wrPage d b =>
    by_cases e : c = d
    · subst e; constructor <;> simp
    · constructor <;> simp [State.chan_setChan, e]
  | _ => constructor <;> simp [completions]

/-- So does a step. -/
theorem step_sameTransfer {c : Chan} {s t : State} (hr : ∀ i, RunsNext s i → ¬ Reprograms c i)
    (hs : ∀ q, RunsNext s (.tick q) → ¬ Services s q c) (h : step s = .next t) : SameTransfer c s t := by
  rcases step_cases h with ⟨_, rfl⟩ | ⟨w, rest, i, hi, hd, he⟩ | ⟨_, _, _, _, rfl⟩ | ⟨_, _, _, rfl⟩
  · exact ⟨rfl, rfl, rfl, rfl, rfl, rfl⟩
  · have hsame := exec_sameTransfer (s := { s with inputs := rest }) (hr i ⟨w, rest, hi, hd⟩) (fun q e hq => hs q ⟨w, rest, hi, e ▸ hd⟩ hq) he
    exact ⟨hsame.wcur, hsame.acur, hsame.abase, hsame.wbase, hsame.mode, hsame.done⟩
  · exact ⟨rfl, rfl, rfl, rfl, rfl, rfl⟩
  · exact ⟨rfl, rfl, rfl, rfl, rfl, by simp [completions]⟩

/-- No units on, the address is the current one (R120). -/
theorem addressAfter_zero (ch : Channel) : addressAfter ch 0 = ch.acur.toNat := by
  have := ch.acur.isLt
  unfold addressAfter
  split <;> simp <;> omega

/-- `Phys(C, 0)` as a number (R120). -/
theorem State.toNat_phys_zero (s : State) (c : Chan) :
    (s.phys c 0#16).toNat = (s.chan c).page.toNat * 65536 + (s.chan c).acur.toNat := by
  have hl := ((s.chan c).addressAhead 0#16).isLt
  unfold State.phys Channel.phys
  rw [BitVec.toNat_append, ← Nat.shiftLeft_add_eq_or_of_lt hl, Nat.shiftLeft_eq, Channel.toNat_addressAhead,
    ← addressAfter_zero]
  rfl

end Sys2Proof.Machine
end

