-- ==== Sys2Proof/Tests/Slice0.lean ====
section
/-! SUPPORT. Tests of the model on fixed values, expected results taken from the spec's encoding tables (30_encoding.md) and
test vectors (95_test_vectors.md, named in each comment), and for every statement with hypotheses a witness that they can be
met. -/

namespace Sys2Proof.Tests.Slice0

open Sys2Proof Sys2Proof.Machine

/-! ### Helpers -/

/-- Whether an outcome is a next state with a property. -/
def ok {σ φ ρ : Type} (o : Host.Outcome σ φ ρ) (p : σ → Bool) : Bool :=
  match o with
  | .next t    => p t
  | .fault _   => false
  | .refused _ => false

/-- Whether an outcome is a fault with a property. -/
def stops {σ φ ρ : Type} (o : Host.Outcome σ φ ρ) (p : φ → Bool) : Bool :=
  match o with
  | .next _    => false
  | .fault f   => p f
  | .refused _ => false

theorem exists_next {σ φ ρ : Type} {o : Host.Outcome σ φ ρ} (h : ok o (fun _ => true) = true) : ∃ t, o = .next t := by
  cases o with
  | next t => exact ⟨t, rfl⟩
  | fault f => exact absurd h Bool.false_ne_true
  | refused r => exact absurd h Bool.false_ne_true

/-- After reset, with `CMD`, `MASK` and channel `c` set: base registers as the current ones. -/
def armed (cmd : Byte) (mask : Nibble) (c : Chan) (mode page : Byte) (a w : Word) : State :=
  ((State.reset.setCmd cmd).setMask mask).setChan c
    { mode := mode, page := page, abase := a, acur := a, wbase := w, wcur := w, bptr := 0x0000#16 }

/-- The start of V43-1: channel 1, read transfer. -/
def reading : State := { armed 0x04#8 0b1101#4 1 0x48#8 0x00#8 0x1000#16 0x0003#16 with mem := [(0x1000, 0xA5#8)] }

/-- The start of V43-2: channel 0, write transfer, decrement. -/
def writing : State :=
  { armed 0x04#8 0b1110#4 0 0x64#8 0x02#8 0x0000#16 0x0001#16 with supply := #v[[0xC1#8, 0xC2#8], [], [], []] }

/-- The start of V43-4: channel 0, verify transfer, one unit. -/
def verifying : State := armed 0x04#8 0b1110#4 0 0x40#8 0x00#8 0x0040#16 0x0000#16

/-- Channel 1 at its last unit with autoinitialize, software-requested (S3). -/
def looping : State :=
  ((armed 0x04#8 0b1101#4 1 0x58#8 0x58#8 0x2010#16 0x0001#16).setChan 1
    { mode := 0x58#8, page := 0x58#8, abase := 0x2010#16, acur := 0x2011#16, wbase := 0x0001#16, wcur := 0x0000#16, bptr := 0x0001#16 }).setReq 0b0010#4

/-- All four channels armed in verify mode with a large count (V44-6). -/
def crowded (cmd : Byte) : State :=
  { armed cmd 0b0000#4 0 0x40#8 0x00#8 0x0000#16 0x1000#16 with
    dmac := { (armed cmd 0b0000#4 0 0x40#8 0x00#8 0x0000#16 0x1000#16).dmac with
      chans := Vector.replicate 4 ⟨0x40#8, 0x00#8, 0x0000#16, 0x0000#16, 0x1000#16, 0x1000#16, 0x0000#16⟩ } }

/-- The start of V43-9: channel 2 has no card. -/
def uncarded : State :=
  { armed 0x04#8 0b1011#4 2 0x40#8 0x00#8 0x0000#16 0x0000#16 with
    cfg := { resetConfig with cards := #v[some ⟨0⟩, some ⟨0⟩, none, some ⟨0⟩] } }

/-- A one-to-one port map that is not the default's. -/
def turned : PortMap :=
  { PortMap.default with
    addr := #v[0x1F#5, 0x1E#5, 0x1D#5, 0x1C#5], cmd := 0x00#5, req := 0x04#5, mask := 0x08#5, status := 0x0C#5, clrff := 0x10#5 }

/-! ### Well-formedness: each check refuses an ill-formed term -/

theorem test_duplicate_offset_refused : ({ PortMap.default with cmd := 0x00#5 } : PortMap).oneToOne = false := by decide

theorem test_config_with_duplicate_offset_refused :
    ({ resetConfig with portMap := { PortMap.default with page := #v[0x02#5, 0x06#5, 0x02#5, 0x0E#5] } } : Config).wellFormed = false := by
  decide

theorem test_read_word_with_data_bits_not_canonical : EventWord.canonical 0x08A5#16 = false := by decide

theorem test_default_config_well_formed : resetConfig.wellFormed = true := by decide

theorem test_memory_out_of_order_not_canonical : Memory.wf [(5, 0x01#8), (4, 0x01#8)] = false := by decide

theorem test_memory_listing_background_not_canonical : Memory.wf [(5, 0x00#8)] = false := by decide

theorem test_memory_beyond_top_not_canonical : Memory.wf [(16777216, 0x01#8)] = false := by decide

/-! ### Decoding: each operation's word, field by field from R61 to R65 (KIND, W, OFF, DATA) -/

theorem test_decode_rdAddr :
    decode PortMap.default (0b00#2 ++ 0b0#1 ++ 0b00100#5 ++ 0b00000000#8 : BitVec (2 + 1 + 5 + 8)) = .instr (.rdAddr 1) := by
  decide

theorem test_decode_wrAddr :
    decode PortMap.default (0b00#2 ++ 0b1#1 ++ 0b01000#5 ++ 0b00010010#8 : BitVec (2 + 1 + 5 + 8)) = .instr (.wrAddr 2 0x12#8) := by
  decide

theorem test_decode_rdWc :
    decode PortMap.default (0b00#2 ++ 0b0#1 ++ 0b01101#5 ++ 0b00000000#8 : BitVec (2 + 1 + 5 + 8)) = .instr (.rdWc 3) := by
  decide

theorem test_decode_wrWc :
    decode PortMap.default (0b00#2 ++ 0b1#1 ++ 0b00001#5 ++ 0b10000001#8 : BitVec (2 + 1 + 5 + 8)) = .instr (.wrWc 0 0x81#8) := by
  decide

theorem test_decode_rdPage :
    decode PortMap.default (0b00#2 ++ 0b0#1 ++ 0b01010#5 ++ 0b00000000#8 : BitVec (2 + 1 + 5 + 8)) = .instr (.rdPage 2) := by
  decide

theorem test_decode_wrPage :
    decode PortMap.default (0b00#2 ++ 0b1#1 ++ 0b01110#5 ++ 0b00000001#8 : BitVec (2 + 1 + 5 + 8)) = .instr (.wrPage 3 0x01#8) := by
  decide

theorem test_decode_wrMode :
    decode PortMap.default (0b00#2 ++ 0b1#1 ++ 0b00111#5 ++ 0b01001000#8 : BitVec (2 + 1 + 5 + 8)) = .instr (.wrMode 1 0x48#8) := by
  decide

theorem test_decode_rdCmd :
    decode PortMap.default (0b00#2 ++ 0b0#1 ++ 0b10000#5 ++ 0b00000000#8 : BitVec (2 + 1 + 5 + 8)) = .instr .rdCmd := by decide

theorem test_decode_wrCmd :
    decode PortMap.default (0b00#2 ++ 0b1#1 ++ 0b10000#5 ++ 0b00010100#8 : BitVec (2 + 1 + 5 + 8)) = .instr (.wrCmd 0x14#8) := by
  decide

theorem test_decode_rdReq :
    decode PortMap.default (0b00#2 ++ 0b0#1 ++ 0b10001#5 ++ 0b00000000#8 : BitVec (2 + 1 + 5 + 8)) = .instr .rdReq := by decide

theorem test_decode_wrReq :
    decode PortMap.default (0b00#2 ++ 0b1#1 ++ 0b10001#5 ++ 0b00000100#8 : BitVec (2 + 1 + 5 + 8)) = .instr (.wrReq 0x04#8) := by
  decide

theorem test_decode_rdMask :
    decode PortMap.default (0b00#2 ++ 0b0#1 ++ 0b10010#5 ++ 0b00000000#8 : BitVec (2 + 1 + 5 + 8)) = .instr .rdMask := by decide

theorem test_decode_wrMask :
    decode PortMap.default (0b00#2 ++ 0b1#1 ++ 0b10010#5 ++ 0b00001101#8 : BitVec (2 + 1 + 5 + 8)) = .instr (.wrMask 0x0D#8) := by
  decide

theorem test_decode_rdStatus :
    decode PortMap.default (0b00#2 ++ 0b0#1 ++ 0b10011#5 ++ 0b00000000#8 : BitVec (2 + 1 + 5 + 8)) = .instr .rdStatus := by decide

theorem test_decode_wrClrff :
    decode PortMap.default (0b00#2 ++ 0b1#1 ++ 0b10100#5 ++ 0b10011001#8 : BitVec (2 + 1 + 5 + 8)) = .instr (.wrClrff 0x99#8) := by
  decide

theorem test_decode_tick :
    decode PortMap.default (0b01#2 ++ 0b0000000000#10 ++ 0b1010#4 : BitVec (2 + 10 + 4)) = .instr (.tick 0xA#4) := by decide

theorem test_decode_reset : decode PortMap.default (0b10#2 ++ 0b00000000000000#14 : BitVec (2 + 14)) = .instr .reset := by decide

/-- V40-16: the data bits of a read are ignored. -/
theorem test_decode_read_ignores_data : decode PortMap.default 0x08A5#16 = .instr (.rdAddr 2) := by decide

/-- V41-12: no mode port has read access. -/
theorem test_decode_mode_read : decode PortMap.default 0x0700#16 = .reject (.portContract 0x07#5 false) := by decide

/-- V41-13. -/
theorem test_decode_status_write : decode PortMap.default 0x3300#16 = .reject (.portContract 0x13#5 true) := by decide

/-- V41-14. -/
theorem test_decode_clrff_read : decode PortMap.default 0x1400#16 = .reject (.portContract 0x14#5 false) := by decide

/-- V41-15, the least and the greatest offset that is no port. -/
theorem test_decode_no_such_port :
    decode PortMap.default 0x1500#16 = .reject (.portContract 0x15#5 false) ∧
    decode PortMap.default 0x3F00#16 = .reject (.portContract 0x1F#5 true) := by decide

/-- V41-16, with the least and the greatest word of each illegal range. -/
theorem test_decode_bad_event :
    decode PortMap.default 0x4010#16 = .reject (.badEvent 0x4010#16) ∧
    decode PortMap.default 0x7FFF#16 = .reject (.badEvent 0x7FFF#16) ∧
    decode PortMap.default 0x8001#16 = .reject (.badEvent 0x8001#16) ∧
    decode PortMap.default 0xFFFF#16 = .reject (.badEvent 0xFFFF#16) := by decide

/-- The words the host uses: the row's instruction is decoded, and the next step runs it. -/
theorem test_withFetchWord :
    decodeTableWord 16 0x3004 = some (.wrCmd 0x04#8) ∧
    ok (step (State.reset.withFetchWord 16 0x3004)) (fun t => t.dmac.cmd = 0x04#8 ∧ t.inputs = []) = true := by decide

/-! ### Channel ports -/

/-- V40-1. -/
theorem test_rdAddr_low :
    ok (exec (.rdAddr 1) (armed 0x04#8 0b1101#4 1 0x48#8 0x00#8 0xBEEF#16 0x0003#16))
      (fun t => t.trace = [.portRead 0xEF#8] ∧ t.dmac.bff = true) = true := by decide

/-- V40-2. -/
theorem test_rdAddr_high :
    ok (exec (.rdAddr 1) ((armed 0x04#8 0b1101#4 1 0x48#8 0x00#8 0xBEEF#16 0x0003#16).setBff true))
      (fun t => t.trace = [.portRead 0xBE#8] ∧ t.dmac.bff = false) = true := by decide

/-- V40-3. -/
theorem test_rdWc_high :
    ok (exec (.rdWc 0) ((armed 0x00#8 0b1111#4 0 0x48#8 0x00#8 0x0000#16 0x0102#16).setBff true))
      (fun t => t.trace = [.portRead 0x01#8] ∧ t.dmac.bff = false) = true := by decide

/-- V40-4: the old base high byte comes back. -/
theorem test_wrAddr_reloads_from_base :
    ok (exec (.wrAddr 0 0x00#8) (State.reset.setChan 0 ⟨0x00#8, 0x00#8, 0x12F0#16, 0x1305#16, 0x0000#16, 0x0000#16, 0x0015#16⟩))
      (fun t => t.chan 0 = ⟨0x00#8, 0x00#8, 0x1200#16, 0x1200#16, 0x0000#16, 0x0000#16, 0x0000#16⟩ ∧ t.dmac.bff = true) = true := by
  decide

/-- V40-11. -/
theorem test_wrAddr_armed_faults :
    stops (exec (.wrAddr 0 0x12#8) verifying) (fun f => f = .programWhileArmed 0 0x00#5 0x12#8 ∧ f.code = 1) = true := by decide

/-- V40-5, second write. -/
theorem test_wrWc_high :
    ok (exec (.wrWc 3 0xBB#8) (State.reset.setBff true))
      (fun t => (t.chan 3).wbase = 0xBB00#16 ∧ (t.chan 3).wcur = 0xBB00#16 ∧ t.dmac.bff = false) = true := by decide

/-- V40-12. -/
theorem test_wrWc_armed_faults :
    stops (exec (.wrWc 0 0x12#8) verifying) (fun f => f = .programWhileArmed 0 0x01#5 0x12#8) = true := by decide

/-- V40-8. -/
theorem test_wrPage_leaves_flip_flop :
    ok (exec (.wrPage 2 0x7F#8) (State.reset.setBff true)) (fun t => (t.chan 2).page = 0x7F#8 ∧ t.dmac.bff = true) = true := by
  decide

/-- V40-9. -/
theorem test_rdPage :
    ok (exec (.rdPage 1) looping) (fun t => t.trace = [.portRead 0x58#8] ∧ t.dmac = looping.dmac) = true := by decide

/-- V40-15. -/
theorem test_wrMode_stores_all_bits :
    ok (exec (.wrMode 3 0xFF#8) State.reset) (fun t => (t.chan 3).mode = 0xFF#8) = true := by decide

/-- V40-13. -/
theorem test_wrMode_armed_faults :
    stops (exec (.wrMode 0 0x48#8) verifying) (fun f => f = .programWhileArmed 0 0x03#5 0x48#8) = true := by decide

/-! ### Global ports -/

/-- V41-2. -/
theorem test_wrCmd : ok (exec (.wrCmd 0xFF#8) State.reset) (fun t => t.dmac.cmd = 0xFF#8) = true := by decide

/-- V41-1, with the bits of V41-2. -/
theorem test_rdCmd : ok (exec .rdCmd (State.reset.setCmd 0xFF#8)) (fun t => t.trace = [.portRead 0xFF#8]) = true := by decide

/-- V41-6: bit 0 is allowed, bit 1 is masked. -/
theorem test_wrReq_masked_faults :
    stops (exec (.wrReq 0x03#8) verifying) (fun f => f = .requestMasked 1 0x03#8 ∧ f.code = 2) = true := by decide

/-- V41-8: a bit that is set already may be written again on a masked channel. -/
theorem test_wrReq_set_bit_stays :
    ok (exec (.wrReq 0xF1#8) (State.reset.setReq 0b0001#4)) (fun t => t.dmac.req = 0b0001#4) = true := by decide

/-- V41-7. -/
theorem test_rdReq : ok (exec .rdReq (State.reset.setReq 0b1001#4)) (fun t => t.trace = [.portRead 0x09#8]) = true := by decide

/-- V41-3. -/
theorem test_rdMask : ok (exec .rdMask State.reset) (fun t => t.trace = [.portRead 0x0F#8]) = true := by decide

/-- V41-4. -/
theorem test_wrMask : ok (exec (.wrMask 0xF5#8) State.reset) (fun t => t.dmac.mask = 0b0101#4) = true := by decide

/-- V41-10. -/
theorem test_rdStatus :
    ok (exec .rdStatus (State.reset.setStatus 0x54#8))
      (fun t => t.trace = [.portRead 0x54#8] ∧ t.dmac.status = 0x00#8) = true := by decide

/-- V41-11. -/
theorem test_wrClrff : ok (exec (.wrClrff 0x99#8) (State.reset.setBff true)) (fun t => t.dmac.bff = false) = true := by decide

/-! ### Translator -/

/-- V42-4, V42-5, V42-6. -/
theorem test_phys :
    (armed 0x00#8 0b1111#4 0 0x40#8 0x00#8 0xFFFF#16 0x0000#16).phys 0 0x0001#16 = 0x000000#24 ∧
    (armed 0x00#8 0b1111#4 0 0x60#8 0x01#8 0x0000#16 0x0000#16).phys 0 0x0001#16 = 0x01FFFF#24 ∧
    (armed 0x00#8 0b1111#4 0 0x60#8 0x12#8 0x3456#16 0x0000#16).phys 0 0x0006#16 = 0x123450#24 := by decide

/-! ### Ticks and reset -/

/-- V43-1 (read), V43-2 (write), V43-4 (verify, terminal count), S3 second tick (autoinitialize). -/
theorem test_tick_services :
    ok (exec (.tick 0x2#4) reading)
      (fun t => t.trace = [.memRead 0x001000#24 0xA5#8, .devPut 1 0x0000#16 0xA5#8] ∧
        t.chan 1 = ⟨0x48#8, 0x00#8, 0x1000#16, 0x1001#16, 0x0003#16, 0x0002#16, 0x0001#16⟩ ∧
        t.dmac.status = 0x20#8 ∧ t.dmac.mask = 0b1101#4 ∧ t.dmac.last = 1) = true ∧
    ok (exec (.tick 0x1#4) writing)
      (fun t => t.mem = [(0x020000, 0xC1#8)] ∧ t.supply[0] = [0xC2#8] ∧
        t.chan 0 = ⟨0x64#8, 0x02#8, 0x0000#16, 0xFFFF#16, 0x0001#16, 0x0000#16, 0x0001#16⟩) = true ∧
    ok (exec (.tick 0x1#4) verifying)
      (fun t => t.trace = [.complete 0 0x0000#16] ∧ (t.chan 0).acur = 0x0041#16 ∧ (t.chan 0).wcur = 0xFFFF#16 ∧
        t.dmac.mask = 0b1111#4 ∧ t.dmac.status = 0x11#8) = true ∧
    ok (exec (.tick 0x2#4) looping)
      (fun t => t.chan 1 = ⟨0x58#8, 0x58#8, 0x2010#16, 0x2010#16, 0x0001#16, 0x0001#16, 0x0000#16⟩ ∧
        t.dmac.mask = 0b1101#4 ∧ t.dmac.status = 0x20#8 ∧ t.dmac.req = 0b0000#4) = true := by decide

/-- V44-6 and V44-7 (the losers' request flags; the rotation after the channel last serviced), V43-6 to V43-9 (faults). -/
theorem test_tick_selects_or_faults :
    ok (exec (.tick 0xA#4) (crowded 0x04#8)) (fun t => t.dmac.status = 0xA0#8 ∧ t.dmac.last = 1) = true ∧
    ok (exec (.tick 0xA#4) ((crowded 0x14#8).setLast 1)) (fun t => t.dmac.last = 3) = true ∧
    stops (exec (.tick 0x1#4) (armed 0x04#8 0b1110#4 0 0x4C#8 0x00#8 0x0000#16 0x0000#16))
      (fun f => f = .reservedType 0 0x4C#8 ∧ f.code = 3) = true ∧
    stops (exec (.tick 0x1#4) (armed 0x04#8 0b1110#4 0 0xC8#8 0x00#8 0x0000#16 0x0000#16))
      (fun f => f = .cascade 0 0xC8#8 ∧ f.code = 4) = true ∧
    stops (exec (.tick 0x1#4) (armed 0x04#8 0b1110#4 0 0xCC#8 0x00#8 0x0000#16 0x0000#16))
      (fun f => f = .reservedType 0 0xCC#8) = true ∧
    stops (exec (.tick 0x4#4) uncarded) (fun f => f = .noCard 2 ∧ f.code = 7) = true := by decide

/-- V70-1, from a channel at its last unit. -/
theorem test_reset : ok (exec .reset looping) (fun t => t.dmac = Dmac.reset ∧ t.trace = []) = true := by decide

/-! ### Witnesses: for each statement with hypotheses, values that meet them together -/

theorem exists_fault {σ φ ρ : Type} {o : Host.Outcome σ φ ρ} (h : stops o (fun _ => true) = true) : ∃ f, o = .fault f := by
  cases o with
  | next t => exact absurd h Bool.false_ne_true
  | fault f => exact ⟨f, rfl⟩
  | refused r => exact absurd h Bool.false_ne_true

/-- The next state of an outcome, or the given one. -/
def land {σ φ ρ : Type} (o : Host.Outcome σ φ ρ) (d : σ) : σ :=
  match o with
  | .next t    => t
  | .fault _   => d
  | .refused _ => d

theorem eq_land {σ φ ρ : Type} {o : Host.Outcome σ φ ρ} {d : σ} (h : ok o (fun _ => true) = true) : o = .next (land o d) := by
  cases o with
  | next t => rfl
  | fault f => exact absurd h Bool.false_ne_true
  | refused r => exact absurd h Bool.false_ne_true

/-- The same state with inputs to come. -/
def given (s : State) (l : List Input) : State := { s with inputs := l }

theorem test_witness_DecodeOfEncode : PortMap.default.oneToOne = true ∧ turned.oneToOne = true := by decide

theorem test_witness_EncodeOfDecode :
    turned.oneToOne = true ∧ decode turned 0x00A5#16 = .instr .rdCmd ∧ decode turned 0x3FA5#16 = .instr (.wrAddr 0 0xA5#8) := by
  decide

theorem test_witness_OpcodeTableRowsDecode : (⟨"RESET", 0x8000#16, 0xFFFF#16⟩ : OpcodeRow) ∈ opcodeTable := by decide

theorem test_witness_StepRunsDecodedWord :
    (given State.reset [.op 0x3004#16]).inputs = .op 0x3004#16 :: [] ∧
    decode (given State.reset [.op 0x3004#16]).cfg.portMap 0x3004#16 = .instr (.wrCmd 0x04#8) := by decide

theorem test_witness_StepFaultsOnIllegalWord :
    (given State.reset [.op 0x1500#16]).inputs = .op 0x1500#16 :: [] ∧
    decode State.reset.cfg.portMap 0x1500#16 = .reject (.portContract 0x15#5 false) ∧
    (given State.reset [.op 0xC000#16]).inputs = .op 0xC000#16 :: [] ∧
    decode State.reset.cfg.portMap 0xC000#16 = .reject (.badEvent 0xC000#16) := by decide

theorem services_reading : Services reading 0x2#4 1 := ⟨by decide, by decide, by decide, by decide, by decide⟩

theorem services_writing : Services writing 0x1#4 0 := ⟨by decide, by decide, by decide, by decide, by decide⟩

theorem services_verifying : Services verifying 0x1#4 0 := ⟨by decide, by decide, by decide, by decide, by decide⟩

theorem services_looping : Services looping 0x0#4 1 := ⟨by decide, by decide, by decide, by decide, by decide⟩

theorem test_witness_CpuStoreSeenByNextTick :
    ∃ s : State, s.mem.wf = true ∧ s.cfg.portMap.oneToOne = true ∧ Services s 0x2#4 1 ∧
      (s.chan 1).mode.extractLsb' 2 2 = 0b10#2 ∧
      s.inputs = .cpuStore (s.phys 1 0#16) 0x5A#8 :: .op (encode s.cfg.portMap (.tick 0x2#4)) :: [] :=
  ⟨given reading [.cpuStore 0x001000#24 0x5A#8, .op 0x4002#16], by decide, by decide, services_reading, by decide, by decide⟩

/-- A transfer of the next byte, a status read and a store to another address before the load. -/
def loadingLater : State :=
  given writing [.op 0x4001#16, .op 0x1300#16, .cpuStore 0x020001#24 0x77#8, .cpuLoad 0x020000#24]

theorem test_witness_CpuLoadSeesEngineStore :
    loadingLater.mem.wf = true ∧ Services loadingLater 0x1#4 0 ∧ (loadingLater.chan 0).mode.extractLsb' 2 2 = 0b01#2 ∧
      loadingLater.supply[(0 : Chan)] = 0xC1#8 :: [0xC2#8] ∧
      loadingLater.inputs = .op (encode loadingLater.cfg.portMap (.tick 0x1#4)) ::
        ([.op 0x1300#16, .cpuStore 0x020001#24 0x77#8] ++ .cpuLoad (loadingLater.phys 0 0#16) :: []) ∧
      ∃ t u, step loadingLater = .next t ∧ Runs 2 t u ∧
        (∀ w, Input.cpuStore (loadingLater.phys 0 0#16) w ∉ [Input.op 0x1300#16, .cpuStore 0x020001#24 0x77#8]) ∧
        ∀ w, Signal.memWrite (loadingLater.phys 0 0#16) w ∉ u.trace.drop t.trace.length := by
  refine ⟨by decide, services_writing, by decide, by decide, by decide, land (step loadingLater) State.reset, ?_⟩
  refine ⟨land (Sys2Proof.core.run 2 (land (step loadingLater) State.reset)) State.reset, eq_land (by decide), eq_land (by decide), ?_, ?_⟩
  · intro w
    have h : loadingLater.phys 0 0#16 ≠ 0x020001#24 := by decide
    simp [h]
  · intro w hw
    have h : (land (Sys2Proof.core.run 2 (land (step loadingLater) State.reset)) State.reset).trace.drop
        (land (step loadingLater) State.reset).trace.length = [.portRead 0x10#8] := by decide
    have hw' := Eq.mp (congrArg (fun l => Signal.memWrite (loadingLater.phys 0 0#16) w ∈ l) h) hw
    simp at hw'

/-- Both ways a programming write is allowed. -/
theorem test_witness_MayProgram :
    MayProgram State.reset 2 ∧ State.reset.cfg.strict = true ∧
    MayProgram { verifying with cfg := { resetConfig with strict := false } } 0 ∧ verifying.dmac.mask.getLsbD 0 = false :=
  ⟨.inr (by decide), by decide, .inl (by decide), by decide⟩

theorem test_witness_WriteAddressPort : MayProgram looping 0 ∧ looping.dmac.bff = false := ⟨.inr (by decide), by decide⟩

theorem test_witness_WriteWordCountPort : MayProgram (looping.setBff true) 3 := .inr (by decide)

theorem test_witness_WriteModePort : MayProgram looping 2 := .inr (by decide)

theorem test_witness_WritePagePort_same_page : (looping.chan 1).page = 0x58#8 := by decide

theorem test_witness_ProgrammingArmedChannelFaults :
    verifying.cfg.strict = true ∧ verifying.dmac.mask.getLsbD (0 : Chan).val = false := by decide

theorem test_witness_RequestPort :
    (∀ c : Chan, (0x01#8).getLsbD c.val = true →
      verifying.dmac.req.getLsbD c.val = true ∨ verifying.dmac.mask.getLsbD c.val = false) ∧
    ({ State.reset with cfg := { resetConfig with strict := false } } : State).cfg.strict = false := by decide

theorem test_witness_RequestWriteFaultsAtLowestChannel :
    State.reset.cfg.strict = true ∧ ∃ f, exec (.wrReq 0x0C#8) State.reset = .fault f :=
  ⟨by decide, exists_fault (by decide)⟩

theorem test_witness_ClearFlipFlop_already_clear : State.reset.dmac.bff = false := by decide

theorem test_witness_ImmediateWritesAreIdempotent :
    (∃ t, exec (.wrMask 0x0D#8) reading = .next t) ∧ (∃ t, exec (.wrReq 0x02#8) reading = .next t) ∧
    (∃ t, exec (.wrCmd 0x14#8) reading = .next t) ∧ (∃ t, exec (.wrPage 1 0x01#8) reading = .next t) ∧
    (∃ t, exec (.wrMode 0 0x44#8) reading = .next t) :=
  ⟨exists_next (by decide), exists_next (by decide), exists_next (by decide), exists_next (by decide), exists_next (by decide)⟩

theorem test_witness_LoadSequences :
    ∃ s u : State, s.cfg.portMap.oneToOne = true ∧ MayProgram s 2 ∧
      s.inputs = inputsOf s.cfg.portMap (ldAddr 2 0x1234#16) ++ [] ∧ u.cfg.portMap.oneToOne = true ∧ MayProgram u 2 ∧
      u.inputs = inputsOf u.cfg.portMap (ldWc 2 0x1234#16) ++ [] :=
  ⟨given State.reset [.op 0x3400#16, .op 0x2834#16, .op 0x2812#16], given State.reset [.op 0x3400#16, .op 0x2934#16, .op 0x2912#16],
    by decide, .inr (by decide), by decide, by decide, .inr (by decide), by decide⟩

theorem test_witness_GetSequences :
    ∃ s u : State, s.cfg.portMap.oneToOne = true ∧ s.inputs = inputsOf s.cfg.portMap (getAddr 3) ++ [] ∧
      u.cfg.portMap.oneToOne = true ∧ u.inputs = inputsOf u.cfg.portMap (getWc 3) ++ [] :=
  ⟨given State.reset [.op 0x3400#16, .op 0x0C00#16, .op 0x0C00#16], given State.reset [.op 0x3400#16, .op 0x0D00#16, .op 0x0D00#16],
    by decide, by decide, by decide, by decide⟩

/-- Both ways a tick services nothing. -/
theorem test_witness_TickWithoutService :
    (verifying.setCmd 0x10#8).dmac.cmd.getLsbD 2 = false ∧ ∀ c, ¬ EligibleAt verifying 0xE#4 c := by
  unfold EligibleAt lineOf
  decide

theorem test_witness_RequestFlagsOfATick :
    (crowded 0x04#8).dmac.cmd.getLsbD 2 = true ∧ ∃ t, exec (.tick 0xA#4) (crowded 0x04#8) = .next t :=
  ⟨by decide, exists_next (by decide)⟩

theorem test_witness_FixedPriority :
    (crowded 0x04#8).dmac.cmd.getLsbD 4 = false ∧ (crowded 0x04#8).selectAt 0xC#4 = some 2 ∧
      (crowded 0x04#8).selectAt 0x0#4 = none := by decide

theorem test_witness_RotatingPriority :
    (crowded 0x14#8).dmac.cmd.getLsbD 4 = true ∧ ((crowded 0x14#8).setLast 2).selectAt 0x6#4 = some 1 ∧
      ((crowded 0x14#8).setLast 2).selectAt 0x4#4 = some 2 := by decide

theorem test_witness_TickFaultsExactly :
    (∃ f, exec (.tick 0x4#4) uncarded = .fault f) ∧ ∀ f, exec (.tick 0x2#4) reading ≠ .fault f := by
  refine ⟨exists_fault (by decide), fun f h => ?_⟩
  obtain ⟨t, ht⟩ := exists_next (o := exec (.tick 0x2#4) reading) (by decide)
  cases ht.symm.trans h

theorem test_witness_ReadTransferTick : Services reading 0x2#4 1 ∧ (reading.chan 1).mode.extractLsb' 2 2 = 0b10#2 :=
  ⟨services_reading, by decide⟩

theorem test_witness_WriteTransferTick :
    writing.mem.wf = true ∧ Services writing 0x1#4 0 ∧ (writing.chan 0).mode.extractLsb' 2 2 = 0b01#2 ∧
      writing.supply[(0 : Chan)] = 0xC1#8 :: [0xC2#8] := ⟨by decide, services_writing, by decide, by decide⟩

/-- The clause of an empty supply. -/
theorem test_witness_WriteTransferTick_empty :
    ∃ s : State, s.mem.wf = true ∧ Services s 0x1#4 0 ∧ (s.chan 0).mode.extractLsb' 2 2 = 0b01#2 ∧ s.supply[(0 : Chan)] = [] :=
  ⟨{ writing with supply := State.reset.supply }, by decide, services_writing, by decide, by decide⟩

theorem test_witness_VerifyTransferTick :
    Services verifying 0x1#4 0 ∧ (verifying.chan 0).mode.extractLsb' 2 2 = 0b00#2 := ⟨services_verifying, by decide⟩

/-- Short of a terminal count, at one without autoinitialize, at one with it. -/
theorem test_witness_TickCountsAndSteps :
    Services writing 0x1#4 0 ∧ (writing.chan 0).wcur ≠ 0x0000#16 ∧ Services verifying 0x1#4 0 ∧
      (verifying.chan 0).wcur = 0x0000#16 ∧ autoBit (verifying.chan 0) = false ∧ Services looping 0x0#4 1 :=
  ⟨services_writing, by decide, services_verifying, by decide, by decide, services_looping⟩

theorem test_witness_PlainTerminalCount :
    Services verifying 0x1#4 0 ∧ (verifying.chan 0).wcur = 0x0000#16 ∧ autoBit (verifying.chan 0) = false ∧
      State.reset.dmac.mask.getLsbD (0 : Chan).val = true ∧ (∃ t, exec (.tick 0xF#4) State.reset = .next t) ∧
      ok (exec (.wrMask 0x00#8) State.reset) (fun t => t.dmac.mask.getLsbD 0 = false) = true :=
  ⟨services_verifying, by decide, by decide, by decide, exists_next (by decide), by decide⟩

theorem test_witness_AutoinitializeTerminalCount :
    Services looping 0x0#4 1 ∧ (looping.chan 1).wcur = 0x0000#16 ∧ autoBit (looping.chan 1) = true :=
  ⟨services_looping, by decide, by decide⟩

theorem test_witness_RequestBitAtTerminalCount :
    Services looping 0x0#4 1 ∧ (looping.chan 1).wcur = 0x0000#16 ∧ Services reading 0x2#4 1 ∧
      (reading.chan 1).wcur ≠ 0x0000#16 := ⟨services_looping, by decide, services_reading, by decide⟩

theorem test_witness_TickLeavesOtherChannels : Services reading 0x2#4 1 ∧ (reading.chan 1).wcur ≠ 0x0000#16 :=
  ⟨services_reading, by decide⟩

theorem test_witness_OnlyWriteTransfersStore :
    ok (exec (.tick 0x1#4) writing) (fun t => t.byteAt 0x020000#24 ≠ writing.byteAt 0x020000#24) = true := by decide

theorem test_witness_CurrentRegisterWriters :
    ok (exec (.tick 0x2#4) reading)
      (fun t => (t.chan 1).acur ≠ (reading.chan 1).acur ∧ (t.chan 1).wcur ≠ (reading.chan 1).wcur) = true ∧
    ok (exec (.wrAddr 0 0x01#8) reading) (fun t => (t.chan 0).acur ≠ (reading.chan 0).acur) = true ∧
    ok (exec (.wrWc 0 0x01#8) reading) (fun t => (t.chan 0).wcur ≠ (reading.chan 0).wcur) = true := by decide

/-- Each of the listed registers changes at some operation. -/
theorem test_witness_RegisterWriters :
    ok (exec (.wrMode 0 0x44#8) reading) (fun t => (t.chan 0).mode ≠ (reading.chan 0).mode) = true ∧
    ok (exec (.wrPage 1 0x44#8) reading) (fun t => (t.chan 1).page ≠ (reading.chan 1).page) = true ∧
    ok (exec (.wrAddr 0 0x44#8) reading) (fun t => (t.chan 0).abase ≠ (reading.chan 0).abase) = true ∧
    ok (exec (.wrWc 0 0x44#8) reading) (fun t => (t.chan 0).wbase ≠ (reading.chan 0).wbase ∧ t.dmac.bff ≠ reading.dmac.bff) = true ∧
    ok (exec (.tick 0x2#4) reading)
      (fun t => (t.chan 1).bptr ≠ (reading.chan 1).bptr ∧ t.dmac.status ≠ reading.dmac.status ∧ t.dmac.last ≠ reading.dmac.last) = true ∧
    ok (exec (.wrCmd 0x14#8) reading) (fun t => t.dmac.cmd ≠ reading.dmac.cmd) = true ∧
    ok (exec (.tick 0x0#4) looping) (fun t => t.dmac.req.getLsbD 1 ≠ looping.dmac.req.getLsbD 1) = true ∧
    ok (exec (.tick 0x1#4) verifying) (fun t => t.dmac.mask.getLsbD 0 ≠ verifying.dmac.mask.getLsbD 0) = true := by decide

theorem test_witness_ConfigurationNeverChanges : ∃ t, step (given reading [.op 0x4002#16]) = .next t :=
  exists_next (by decide)

/-- One operation that is a terminal count of channel 0 and one that is not. -/
theorem test_witness_CompletionExactlyAtTerminalCount :
    (∃ t, exec (.tick 0x1#4) verifying = .next t) ∧ Services verifying 0x1#4 0 ∧ (verifying.chan 0).wcur = 0x0000#16 ∧
      (∃ t, exec (.wrMask 0x0F#8) verifying = .next t) :=
  ⟨exists_next (by decide), services_verifying, by decide, exists_next (by decide)⟩

theorem test_witness_MaskedChannelStandsStill :
    ∃ s t : State, s.cfg.portMap.oneToOne = true ∧ s.dmac.mask.getLsbD (0 : Chan).val = true ∧
      s.inputs = ticks s.cfg.portMap [0x3#4, 0x3#4] ++ [] ∧ Runs 2 s t := by
  obtain ⟨t, ht⟩ := exists_next (o := Sys2Proof.core.run 2 (given reading [.op 0x4003#16, .op 0x4003#16])) (by decide)
  exact ⟨given reading [.op 0x4003#16, .op 0x4003#16], t, by decide, by decide, by decide, ht⟩

theorem test_witness_TransferModeIgnored :
    (0x8B#8).extractLsb' 2 4 = (reading.chan 1).mode.extractLsb' 2 4 ∧ (0x8B#8).extractLsb' 6 2 ≠ 0b11#2 ∧
      ∃ t, exec (.tick 0x2#4) reading = .next t := ⟨by decide, by decide, exists_next (by decide)⟩

theorem test_witness_UnnamedCommandBitsIgnored :
    (0x05#8).getLsbD 2 = reading.dmac.cmd.getLsbD 2 ∧ (0x05#8).getLsbD 4 = reading.dmac.cmd.getLsbD 4 ∧
      ∃ t, exec (.tick 0x2#4) reading = .next t := ⟨by decide, by decide, exists_next (by decide)⟩

/-- Each fault an operation can end in is one some operation ends in. -/
theorem test_witness_OnlyListedFaults :
    stops (exec (.wrAddr 0 0x12#8) verifying) (fun f => f = .programWhileArmed 0 0x00#5 0x12#8) = true ∧
    stops (exec (.wrReq 0x08#8) State.reset) (fun f => f = .requestMasked 3 0x08#8) = true ∧
    stops (exec (.tick 0x1#4) (armed 0x04#8 0b1110#4 0 0x4C#8 0x00#8 0x0000#16 0x0000#16)) (fun f => f = .reservedType 0 0x4C#8) = true ∧
    stops (exec (.tick 0x1#4) (armed 0x04#8 0b1110#4 0 0xC8#8 0x00#8 0x0000#16 0x0000#16)) (fun f => f = .cascade 0 0xC8#8) = true ∧
    stops (exec (.tick 0x4#4) uncarded) (fun f => f = .noCard 2) = true := by decide

theorem only_reading : OnlyEligible reading 0x2#4 1 := by
  unfold OnlyEligible EligibleAt lineOf
  decide

theorem only_writing : OnlyEligible writing 0x1#4 0 := by
  unfold OnlyEligible EligibleAt lineOf
  decide

/-- At the least and the greatest number of ticks the law covers. -/
theorem test_witness_ProgressLaw :
    ∃ s u : State, s.cfg.portMap.oneToOne = true ∧ s.dmac.cmd.getLsbD 2 = true ∧ OnlyEligible s 0x2#4 1 ∧ Admitted s 1 ∧
      s.inputs = ticks s.cfg.portMap (List.replicate 0 0x2#4) ++ [] ∧ 0 ≤ (s.chan 1).wcur.toNat ∧
      u.cfg.portMap.oneToOne = true ∧ u.dmac.cmd.getLsbD 2 = true ∧ OnlyEligible u 0x2#4 1 ∧ Admitted u 1 ∧
      u.inputs = ticks u.cfg.portMap (List.replicate 3 0x2#4) ++ [] ∧ 3 ≤ (u.chan 1).wcur.toNat :=
  ⟨reading, given reading [.op 0x4002#16, .op 0x4002#16, .op 0x4002#16], by decide, by decide, only_reading, services_reading.2.2,
    by decide, by decide, by decide, by decide, only_reading, services_reading.2.2, by decide, by decide⟩

theorem test_witness_TerminalCountAfterProgrammedLength :
    ∃ s : State, s.cfg.portMap.oneToOne = true ∧ s.dmac.cmd.getLsbD 2 = true ∧ OnlyEligible s 0x1#4 0 ∧ Admitted s 0 ∧
      s.inputs = ticks s.cfg.portMap (List.replicate ((s.chan 0).wcur.toNat + 1) 0x1#4) ++ [] :=
  ⟨given writing [.op 0x4001#16, .op 0x4001#16], by decide, by decide, only_writing, services_writing.2.2, by decide⟩

/-- At the greatest number of bytes the statement covers. -/
theorem test_witness_WriteBlockLandsInPage :
    ∃ s : State, s.mem.wf = true ∧ s.cfg.portMap.oneToOne = true ∧ s.dmac.cmd.getLsbD 2 = true ∧
      OnlyEligible s 0x1#4 0 ∧ Admitted s 0 ∧ (s.chan 0).mode.extractLsb' 2 2 = 0b01#2 ∧
      s.supply[(0 : Chan)] = [0xC1#8, 0xC2#8] ++ [] ∧ [0xC1#8, 0xC2#8].length ≤ (s.chan 0).wcur.toNat + 1 ∧
      s.inputs = ticks s.cfg.portMap (List.replicate [0xC1#8, 0xC2#8].length 0x1#4) ++ [] :=
  ⟨given writing [.op 0x4001#16, .op 0x4001#16], by decide, by decide, by decide, only_writing, services_writing.2.2, by decide,
    by decide, by decide, by decide⟩

/-- At the greatest number of bytes the statement covers. -/
theorem test_witness_ReadBlockGivesCardMemory :
    ∃ s : State, s.cfg.portMap.oneToOne = true ∧ s.dmac.cmd.getLsbD 2 = true ∧ OnlyEligible s 0x2#4 1 ∧ Admitted s 1 ∧
      (s.chan 1).mode.extractLsb' 2 2 = 0b10#2 ∧ 4 ≤ (s.chan 1).wcur.toNat + 1 ∧
      s.inputs = ticks s.cfg.portMap (List.replicate 4 0x2#4) ++ [] :=
  ⟨given reading [.op 0x4002#16, .op 0x4002#16, .op 0x4002#16, .op 0x4002#16], by decide, by decide, only_reading,
    services_reading.2.2, by decide, by decide, by decide⟩

theorem test_witness_RotationIsFair :
    ∃ s t : State, s.cfg.portMap.oneToOne = true ∧ s.dmac.cmd.getLsbD 2 = true ∧ s.dmac.cmd.getLsbD 4 = true ∧
      s.dmac.mask.getLsbD (3 : Chan).val = false ∧
      (∀ k : Nat, k < 4 → lineOf 0xF#4 3 = true ∨ s.dmac.req.getLsbD (3 : Chan).val = true) ∧
      s.inputs = ticks s.cfg.portMap [0xF#4, 0xF#4, 0xF#4, 0xF#4] ++ [] ∧ Runs 4 s t := by
  obtain ⟨t, ht⟩ := exists_next
    (o := Sys2Proof.core.run 4 (given (crowded 0x14#8) [.op 0x400F#16, .op 0x400F#16, .op 0x400F#16, .op 0x400F#16])) (by decide)
  exact ⟨_, t, by decide, by decide, by decide, by decide, fun _ _ => .inl (by decide), by decide, ht⟩

/-- By the software bit alone, with the line low. -/
theorem test_witness_RotationIsFair_software :
    ∃ s t : State, s.cfg.portMap.oneToOne = true ∧ s.dmac.cmd.getLsbD 2 = true ∧ s.dmac.cmd.getLsbD 4 = true ∧
      s.dmac.mask.getLsbD (3 : Chan).val = false ∧ lineOf 0x7#4 3 = false ∧
      (∀ k : Nat, k < 4 → lineOf 0x7#4 3 = true ∨ s.dmac.req.getLsbD (3 : Chan).val = true) ∧
      s.inputs = ticks s.cfg.portMap [0x7#4, 0x7#4, 0x7#4, 0x7#4] ++ [] ∧ Runs 4 s t := by
  obtain ⟨t, ht⟩ := exists_next (o := Sys2Proof.core.run 4
    (given ((crowded 0x14#8).setReq 0b1000#4) [.op 0x4007#16, .op 0x4007#16, .op 0x4007#16, .op 0x4007#16])) (by decide)
  exact ⟨_, t, by decide, by decide, by decide, by decide, by decide, fun _ _ => .inr (by decide), by decide, ht⟩

theorem test_witness_InvariantKeptByStep :
    ∃ s t : State, MachineInv s ∧ s.dmac.status.getLsbD 0 = true ∧ step s = .next t := by
  obtain ⟨t, ht⟩ := exists_next (o := step (given (((verifying.setStatus 0x01#8)).emit (.complete 0 0x0000#16)) [.op 0x1300#16])) (by decide)
  refine ⟨_, t, ⟨by decide, by decide, fun c hc => ⟨0x0000#16, ?_⟩⟩, by decide, ht⟩
  revert hc
  revert c
  decide

/-- Channels 0 and 1 take turns: one step of channel 0, one of channel 1 between, and a tick of channel 0 to come. -/
def taking : State := given (crowded 0x14#8) [.op 0x4003#16, .op 0x4003#16]

def taken : State := land (step taking) State.reset

theorem test_witness_ProgressInAnyRun :
    ∃ t, TransferRun 0 1 taking t ∧ 1 ≤ (taking.chan 0).wcur.toNat ∧ Services t 0x3#4 0 := by
  have hi : taken.inputs = .op 0x4003#16 :: [] := by decide
  have hd : decode taken.cfg.portMap 0x4003#16 = .instr (.tick 0x3#4) := by decide
  have hsel : taken.selectAt 0x3#4 = some 1 := by decide
  have only : ∀ i, RunsNext taken i → i = .tick 0x3#4 := by
    rintro i ⟨w, rest, hw, hiw⟩
    cases hi.symm.trans hw
    cases hd.symm.trans hiw
    rfl
  refine ⟨land (step taken) State.reset, .service (u := taken) (q := 0x3#4) ⟨_, _, rfl, by decide⟩
    ⟨by decide, by decide, by decide, by decide, by decide⟩ (eq_land (by decide))
    (.other ?_ ?_ (eq_land (by decide)) (.nil _)), by decide, ⟨by decide, by decide, by decide, by decide, by decide⟩⟩
  · rintro i h (rfl | ⟨b, rfl | rfl | rfl⟩) <;> cases only _ h
  · intro q h hs
    cases only _ h
    cases hsel.symm.trans hs.2.1

/-- A channel whose count is zero, after its one step; one without autoinitialize and one with it. -/
theorem test_witness_TerminalCountInAnyRun :
    (∃ t, TransferRun 0 (((given verifying [.op 0x4001#16]).chan 0).wcur.toNat + 1) (given verifying [.op 0x4001#16]) t) ∧
    autoBit (verifying.chan 0) = false ∧
    (∃ t, TransferRun 1 (((given looping [.op 0x4000#16]).chan 1).wcur.toNat + 1) (given looping [.op 0x4000#16]) t) ∧
    autoBit (looping.chan 1) = true :=
  ⟨⟨land (step (given verifying [.op 0x4001#16])) State.reset, .service ⟨_, _, rfl, by decide⟩ services_verifying
      (eq_land (by decide)) (.nil _)⟩, by decide,
    ⟨land (step (given looping [.op 0x4000#16])) State.reset, .service ⟨_, _, rfl, by decide⟩ services_looping
      (eq_land (by decide)) (.nil _)⟩, by decide⟩

end Sys2Proof.Tests.Slice0
end

section
/-! What changes the current registers of a channel (10_state.md R16): a port write changes at most the current
register whose base it loads, and every other operation than reset leaves both to the channel's own service. -/

namespace Sys2Proof.Machine

open Sys2Proof

section

variable {c d : Chan} {b : Byte} {i : Instr} {s t : State}

/-- An address write reloads the current address from its base (R81). -/
theorem acur_eq_abase_of_wrAddr (h : exec (.wrAddr c b) s = .next t) : (t.chan c).acur = (t.chan c).abase := by
  cases effect_of_exec h with
  | wrAddr => simp

/-- A word-count write reloads the current count from its base (R83). -/
theorem wcur_eq_wbase_of_wrWc (h : exec (.wrWc c b) s = .next t) : (t.chan c).wcur = (t.chan c).wbase := by
  cases effect_of_exec h with
  | wrWc => simp

/-- An address write leaves every current count as it was (R81). -/
theorem wcur_of_wrAddr (h : exec (.wrAddr d b) s = .next t) : (t.chan c).wcur = (s.chan c).wcur := by
  cases effect_of_exec h with
  | wrAddr => by_cases e : c = d <;> simp [State.chan_setChan, e]

/-- A word-count write leaves every current address as it was (R83). -/
theorem acur_of_wrWc (h : exec (.wrWc d b) s = .next t) : (t.chan c).acur = (s.chan c).acur := by
  cases effect_of_exec h with
  | wrWc => by_cases e : c = d <;> simp [State.chan_setChan, e]

/-- A mode write leaves every current address and count as it was (R87). -/
theorem current_of_wrMode (h : exec (.wrMode d b) s = .next t) :
    (t.chan c).acur = (s.chan c).acur ∧ (t.chan c).wcur = (s.chan c).wcur := by
  cases effect_of_exec h with
  | wrMode => by_cases e : c = d <;> simp [State.chan_setChan, e]

/-- An operation reprograms a channel, or services it, or leaves what its steps work on as it was. -/
theorem reprograms_or_services_or_same (c : Chan) (h : exec i s = .next t) :
    Reprograms c i ∨ (∃ q, i = .tick q ∧ Services s q c) ∨ SameTransfer c s t := by
  by_cases hr : Reprograms c i
  · exact .inl hr
  · by_cases hs : ∃ q, i = .tick q ∧ Services s q c
    · exact .inr (.inl hs)
    · exact .inr (.inr (exec_sameTransfer hr (fun q hq hqs => hs ⟨q, hq, hqs⟩) h))

/-- What changes a current address is an address write, reset, or the service of the channel (R16). -/
theorem acur_writer (h : exec i s = .next t) (hne : (t.chan c).acur ≠ (s.chan c).acur) :
    (∃ b, i = .wrAddr c b) ∨ i = .reset ∨ ∃ q, i = .tick q ∧ Services s q c := by
  rcases reprograms_or_services_or_same c h with (rfl | ⟨b, rfl | rfl | rfl⟩) | hs | hsame
  · exact .inr (.inl rfl)
  · exact .inl ⟨b, rfl⟩
  · exact absurd (acur_of_wrWc h) hne
  · exact absurd (current_of_wrMode h).1 hne
  · exact .inr (.inr hs)
  · exact absurd hsame.acur hne

/-- What changes a current count is a word-count write, reset, or the service of the channel (R16). -/
theorem wcur_writer (h : exec i s = .next t) (hne : (t.chan c).wcur ≠ (s.chan c).wcur) :
    (∃ b, i = .wrWc c b) ∨ i = .reset ∨ ∃ q, i = .tick q ∧ Services s q c := by
  rcases reprograms_or_services_or_same c h with (rfl | ⟨b, rfl | rfl | rfl⟩) | hs | hsame
  · exact .inr (.inl rfl)
  · exact absurd (wcur_of_wrAddr h) hne
  · exact .inl ⟨b, rfl⟩
  · exact absurd (current_of_wrMode h).2 hne
  · exact .inr (.inr hs)
  · exact absurd hsame.wcur hne

end

/-- Settles O42: an operation that neither reprograms nor services a channel leaves its current registers, and each
reprogramming write changes at most the one that it reloads from its base. -/
theorem currentRegisterWriters : Obligations.CurrentRegisterWriters := by
  intro i s t c h
  refine ⟨acur_writer h, wcur_writer h, ?_, ?_⟩
  · rintro b rfl
    exact acur_eq_abase_of_wrAddr h
  · rintro b rfl
    exact wcur_eq_wbase_of_wrWc h

end Sys2Proof.Machine
end

section
/-! What a serviced step does to the registers of its channel (43_transfer_engine.md R135, R136), from the registers
after a whole unit (`Channel.afterUnit`). -/

namespace Sys2Proof.Machine

open Sys2Proof

/-- A tick that services a channel leaves it with the registers after one unit (R130, R150). -/
theorem exec_tick_chan_of_services {s : State} {q : Nibble} {c : Chan} (h : Services s q c) :
    ∃ t : State, exec (.tick q) s = .next t ∧ t.chan c = (s.chan c).afterUnit :=
  ⟨_, execTick_services h, by simp [State.transferUnit_chan_self]⟩

/-- Taking one from a 16-bit word is adding 65535 modulo 2^16. -/
theorem toNat_sub_one (w : Word) : (w - 1).toNat = (w.toNat + 65535) % 65536 := by
  rw [BitVec.toNat_sub, Nat.add_comm]
  rfl

/-- Actions 3 and 4 leave the count one less and the address one further in its direction, modulo 2^16 (R135, R136). -/
theorem Channel.toNat_counted (ch : Channel) :
    ch.counted.wcur.toNat = (ch.wcur.toNat + 65535) % 65536 ∧ ch.counted.acur.toNat = addressAfter ch 1 :=
  ⟨toNat_sub_one ch.wcur, ch.toNat_addressAhead 1⟩

/-- Action 4 changes nothing of the channel but its count (R136). -/
theorem State.countDown_chan_self (s : State) (c : Chan) :
    (s.countDown c).chan c = { s.chan c with wcur := (s.chan c).wcur - 1 } :=
  State.chan_setChan_self s c _

/-- Settles O36: a serviced channel is left with the registers after one unit, which are the counted ones unless a
terminal count reloads them. -/
theorem tickCountsAndSteps : Obligations.TickCountsAndSteps := by
  intro s q c h
  obtain ⟨t, ht, hc⟩ := exec_tick_chan_of_services h
  refine ⟨t, ht, by simp [hc], by simp [hc], by simp [hc], by simp [hc], fun hplain => ?_, ?_, ?_⟩
  · rw [hc, Channel.afterUnit_counted hplain]
    exact (s.chan c).toNat_counted
  · rw [State.countDown_chan_self]
    exact toNat_sub_one _
  · rw [State.countDown_chan_self]

end Sys2Proof.Machine
end

section
/-! Ticks with nothing to service, and the fixed policy (44_service_scheduler.md R151, R154, R155), from the eligible set
read channel by channel (`bitOf_eligibleAt`). -/

namespace Sys2Proof.Machine

open Sys2Proof

/-- The eligible set is empty exactly when no channel is eligible (R152). -/
theorem eligibleAt_eq_zero_iff (s : State) (q : Nibble) : s.eligibleAt q = 0#4 ↔ ∀ c, ¬ EligibleAt s q c := by
  simp only [← bitOf_eligibleAt]
  constructor
  · intro he c
    simp [he, bitOf]
  · intro hnone
    refine BitVec.eq_of_getLsbD_eq fun i hi => ?_
    have hbit : (s.eligibleAt q).getLsbD i = false := Bool.eq_false_iff.mpr (hnone ⟨i, hi⟩)
    rw [hbit, BitVec.getLsbD_zero]

/-- Under the fixed policy the selected channel is the fixed pick of the eligible set (R155). -/
theorem selectAt_of_not_rotating {s : State} (q : Nibble) (h : rotating s.dmac.cmd = false) :
    s.selectAt q = fixedPick (s.eligibleAt q) := by
  simp [State.selectAt, h]

/-- Settles O28: either way the tick is an idle one (`execTick_idle`). -/
theorem tickWithoutService : Obligations.TickWithoutService := by
  intro s q h
  have hidle : enabled s.dmac.cmd = false ∨ s.eligibleAt q = 0#4 := h.imp_right (eligibleAt_eq_zero_iff s q).mpr
  exact execTick_idle hidle

/-- Settles O30: the fixed pick is the least channel of the eligible set, and there is none when the set is empty. -/
theorem fixedPriority : Obligations.FixedPriority := by
  intro s q hfixed
  constructor
  · intro c
    rw [selectAt_of_not_rotating q hfixed, fixedPick_eq_some]
    simp only [← bitOf_eligibleAt, Bool.not_eq_true]
  · rw [selectAt_eq_none, eligibleAt_eq_zero_iff]

end Sys2Proof.Machine
end

section
/-! The encoder and the decoder against each other and against the opcode table (30_encoding.md R62 to R65, R72): the
four forms of an event word (`decode_cases`), and the word of each form. -/

namespace Sys2Proof

/-! #### The words of the operations -/

/-- The word of a port read is the read of the port's offset, with no data bit set (R63). -/
theorem encode_of_readInstr (pm : PortMap) {p : Port} {i : Instr} (h : p.readInstr = some i) :
    encode pm i = accessWord false (pm.offsetOf p) 0x00#8 := by
  cases p with
  | chan c k => cases k <;> cases h <;> rfl
  | _ => cases h <;> rfl

/-- The word of a port write is the write of its byte to the port's offset (R63). -/
theorem encode_of_writeInstr (pm : PortMap) {p : Port} {b : Byte} {i : Instr} (h : p.writeInstr b = some i) :
    encode pm i = accessWord true (pm.offsetOf p) b := by
  cases p with
  | chan c k => cases k <;> cases h <;> rfl
  | _ => cases h <;> rfl

/-- Every operation is a port read, a port write, a tick or reset. -/
theorem Instr.forms (i : Instr) :
    (∃ p, Port.readInstr p = some i) ∨ (∃ p b, Port.writeInstr b p = some i) ∨ (∃ q, i = .tick q) ∨ i = .reset := by
  cases i with
  | rdAddr c => exact .inl ⟨.chan c .addr, rfl⟩
  | rdWc c => exact .inl ⟨.chan c .wc, rfl⟩
  | rdPage c => exact .inl ⟨.chan c .page, rfl⟩
  | rdCmd => exact .inl ⟨.cmd, rfl⟩
  | rdReq => exact .inl ⟨.req, rfl⟩
  | rdMask => exact .inl ⟨.mask, rfl⟩
  | rdStatus => exact .inl ⟨.status, rfl⟩
  | wrAddr c b => exact .inr (.inl ⟨.chan c .addr, b, rfl⟩)
  | wrWc c b => exact .inr (.inl ⟨.chan c .wc, b, rfl⟩)
  | wrPage c b => exact .inr (.inl ⟨.chan c .page, b, rfl⟩)
  | wrMode c b => exact .inr (.inl ⟨.chan c .mode, b, rfl⟩)
  | wrCmd b => exact .inr (.inl ⟨.cmd, b, rfl⟩)
  | wrReq b => exact .inr (.inl ⟨.req, b, rfl⟩)
  | wrMask b => exact .inr (.inl ⟨.mask, b, rfl⟩)
  | wrClrff b => exact .inr (.inl ⟨.clrff, b, rfl⟩)
  | tick q => exact .inr (.inr (.inl ⟨q, rfl⟩))
  | reset => exact .inr (.inr (.inr rfl))

/-- The reset word decodes to reset under every port map (R65). -/
theorem decode_resetWord (pm : PortMap) : decode pm resetWord = .instr .reset := by
  have hk : resetWord.kind = 0b10#2 := by decide
  have hz : resetWord.extractLsb' 0 14 = 0#14 := by decide
  simp [decode, hk, hz]

/-- Settles O1: a port's own offset decodes to that port, and the tick and reset words to themselves. -/
theorem decodeOfEncode : Obligations.DecodeOfEncode := by
  intro pm i hpm
  rcases i.forms with ⟨p, hp⟩ | ⟨p, b, hp⟩ | ⟨q, rfl⟩ | rfl
  · rw [encode_of_readInstr pm hp, decode_accessWord, decodeAccess_offsetOf hpm]
    simp [hp]
  · rw [encode_of_writeInstr pm hp, decode_accessWord, decodeAccess_offsetOf hpm]
    simp [hp]
  · exact Machine.decode_tickWord pm q
  · exact decode_resetWord pm

/-! #### The forms of a word -/

/-- An access decodes to the operation of the port at the offset in that direction, or is rejected by its offset and
direction (R61, R72). -/
theorem decodeAccess_cases (pm : PortMap) (off : PortOffset) (wr : Bool) (d : Byte) :
    (∃ p i, pm.offsetOf p = off ∧ (if wr then p.writeInstr d else p.readInstr) = some i ∧
      decodeAccess pm off wr d = .instr i) ∨
    decodeAccess pm off wr d = .reject (.portContract off wr) := by
  unfold decodeAccess
  cases hp : pm.portAt off with
  | none => exact .inr rfl
  | some p =>
    cases hi : (if wr then p.writeInstr d else p.readInstr) with
    | none => exact .inr (by simp [hi])
    | some i => exact .inl ⟨p, i, PortMap.offsetOf_of_portAt hp, hi, by simp [hi]⟩

/-- A word of kind 1 with clear must-be-zero bits is a tick word (R64). -/
theorem eq_tickWord {w : EventWord} (hk : w.kind = 0b01#2) (hz : w.extractLsb' 4 10 = 0#10) :
    w = tickWord (w.extractLsb' 0 4) := by
  have hk' := congrArg BitVec.toNat hk
  have hz' := congrArg BitVec.toNat hz
  rw [EventWord.toNat_kind] at hk'
  apply BitVec.eq_of_toNat_eq
  rw [toNat_tickWord]
  simp [BitVec.extractLsb'_toNat, Nat.shiftRight_eq_div_pow] at hk' hz' ⊢
  omega

/-- A word of kind 2 with clear must-be-zero bits is the reset word (R65). -/
theorem eq_resetWord {w : EventWord} (hk : w.kind = 0b10#2) (hz : w.extractLsb' 0 14 = 0#14) : w = resetWord := by
  have hk' := congrArg BitVec.toNat hk
  have hz' := congrArg BitVec.toNat hz
  rw [EventWord.toNat_kind] at hk'
  apply BitVec.eq_of_toNat_eq
  simp [resetWord, BitVec.extractLsb'_toNat] at hk' hz' ⊢
  omega

/-- A word that is no event: of the reserved kind, or with a must-be-zero bit set (R72). -/
def EventWord.isBad (w : EventWord) : Prop :=
  (w.kind = 0b01#2 ∧ w.extractLsb' 4 10 ≠ 0#10) ∨ (w.kind = 0b10#2 ∧ w.extractLsb' 0 14 ≠ 0#14) ∨ w.kind = 0b11#2

/-- The four forms of a word and what each decodes to (R62 to R65, R72). -/
theorem decode_cases (pm : PortMap) (w : EventWord) :
    (∃ wr off d, w = accessWord wr off d ∧ decode pm w = decodeAccess pm off wr d) ∨
    (∃ q, w = tickWord q ∧ decode pm w = .instr (.tick q)) ∨
    (w = resetWord ∧ decode pm w = .instr .reset) ∨
    (w.isBad ∧ decode pm w = .reject (.badEvent w)) := by
  have hkinds : ∀ k : BitVec 2, k = 0b00#2 ∨ k = 0b01#2 ∨ k = 0b10#2 ∨ k = 0b11#2 := by decide
  rcases hkinds w.kind with hk | hk | hk | hk
  · exact .inl ⟨_, _, _, (accessWord_of_fields hk).symm, by simp [decode, hk]⟩
  · by_cases hz : w.extractLsb' 4 10 = 0#10
    · exact .inr (.inl ⟨_, eq_tickWord hk hz, by simp [decode, hk, hz]⟩)
    · exact .inr (.inr (.inr ⟨.inl ⟨hk, hz⟩, by simp [decode, hk, hz]⟩))
  · by_cases hz : w.extractLsb' 0 14 = 0#14
    · exact .inr (.inr (.inl ⟨eq_resetWord hk hz, by simp [decode, hk, hz]⟩))
    · exact .inr (.inr (.inr ⟨.inr (.inl ⟨hk, hz⟩), by simp [decode, hk, hz]⟩))
  · exact .inr (.inr (.inr ⟨.inr (.inr hk), by simp [decode, hk]⟩))

/-! #### Canonical form -/

/-- Bits 15:8 of a word: all of a port-access word but its data. -/
def EventWord.high (w : EventWord) : Byte := w.extractLsb' 8 8

theorem EventWord.toNat_high (w : EventWord) : w.high.toNat = w.toNat / 256 := by
  have := w.isLt
  simp only [EventWord.high, BitVec.extractLsb'_toNat, Nat.shiftRight_eq_div_pow]
  omega

/-- Two words are equal when their bytes are. -/
theorem EventWord.ext_iff_bytes {v w : EventWord} : v = w ↔ v.high = w.high ∧ v.data = w.data := by
  constructor
  · rintro rfl; exact ⟨rfl, rfl⟩
  · rintro ⟨hh, hd⟩
    have hh' := congrArg BitVec.toNat hh
    have hd' := congrArg BitVec.toNat hd
    rw [toNat_high, toNat_high] at hh'
    rw [toNat_data, toNat_data] at hd'
    exact BitVec.eq_of_toNat_eq (by omega)

@[simp] theorem EventWord.high_and (v w : EventWord) : (v &&& w).high = v.high &&& w.high :=
  BitVec.extractLsb'_and

@[simp] theorem EventWord.data_and (v w : EventWord) : (v &&& w).data = v.data &&& w.data :=
  BitVec.extractLsb'_and

@[simp] theorem EventWord.kind_and (v w : EventWord) : (v &&& w).kind = v.kind &&& w.kind :=
  BitVec.extractLsb'_and

/-- The data bits are not in the high byte. -/
theorem high_accessWord (wr : Bool) (off : PortOffset) (d : Byte) :
    (accessWord wr off d).high = (accessWord wr off 0x00#8).high := by
  have hd := d.isLt
  apply BitVec.eq_of_toNat_eq
  rw [EventWord.toNat_high, EventWord.toNat_high, toNat_accessWord, toNat_accessWord]
  simp only [BitVec.toNat_ofNat]
  omega

/-- The canonical form of a port access: the data of a read cleared (R63). -/
theorem canonicalForm_accessWord (wr : Bool) (off : PortOffset) (d : Byte) :
    (accessWord wr off d).canonicalForm = accessWord wr off (if wr then d else 0x00#8) := by
  have hbits : (accessWord wr off d).extractLsb' 13 3 = 0#3 ↔ wr = false := by
    have ho := off.isLt
    have hd := d.isLt
    rw [← BitVec.toNat_inj, BitVec.extractLsb'_toNat, toNat_accessWord, Nat.shiftRight_eq_div_pow]
    cases wr <;> simp <;> omega
  cases wr with
  | true => simp [EventWord.canonicalForm, hbits]
  | false =>
    have hhigh : EventWord.high 0xFF00#16 = BitVec.allOnes 8 := by decide
    have hdata : EventWord.data 0xFF00#16 = 0#8 := by decide
    simp only [EventWord.canonicalForm, hbits, if_true, Bool.false_eq_true, if_false]
    rw [EventWord.ext_iff_bytes]
    constructor
    · rw [EventWord.high_and, hhigh, BitVec.and_allOnes, high_accessWord false off d]
    · simp [hdata]

/-- Every canonical form is canonical (R63). -/
theorem EventWord.canonical_canonicalForm (w : EventWord) : w.canonicalForm.canonical = true := by
  have hdata : (0xFF00#16 : EventWord).extractLsb' 0 8 = 0#8 := by decide
  unfold EventWord.canonicalForm EventWord.canonical
  split
  · simp [BitVec.extractLsb'_and, hdata]
  · next h => simp [h]

/-- The canonical form of a word that decodes to an operation is the operation's word: a read keeps no data bit, every
other operand is in the word. -/
theorem encode_of_decode {pm : PortMap} {w : EventWord} {i : Instr} (h : decode pm w = .instr i) :
    encode pm i = w.canonicalForm := by
  rcases decode_cases pm w with ⟨wr, off, d, rfl, hw⟩ | ⟨q, rfl, hw⟩ | ⟨rfl, hw⟩ | ⟨-, hw⟩ <;> rw [hw] at h
  · rcases decodeAccess_cases pm off wr d with ⟨p, j, rfl, hj, ha⟩ | ha <;> cases ha.symm.trans h
    rw [canonicalForm_accessWord]
    cases wr with
    | false => exact encode_of_readInstr pm hj
    | true => exact encode_of_writeInstr pm hj
  · cases h
    have : ∀ q, (tickWord q).canonicalForm = tickWord q := by decide
    exact (this q).symm
  · cases h; rfl
  · cases h

/-- Settles O2: the canonical form is the operation's own word (`encode_of_decode`), which decodes back (O1). -/
theorem encodeOfDecode : Obligations.EncodeOfDecode := by
  intro pm w i hpm h
  have henc := encode_of_decode h
  exact ⟨henc, w.canonical_canonicalForm, henc ▸ decodeOfEncode pm i hpm⟩

/-! #### The opcode table -/

/-- The mnemonic of what a word decodes to, if it decodes. -/
def Decoded.mnemonic : Decoded → Option String
  | .instr i  => some i.mnemonic
  | .reject _ => none

theorem Decoded.mnemonic_eq_some {D : Decoded} {m : String} :
    D.mnemonic = some m ↔ ∃ i, D = .instr i ∧ i.mnemonic = m := by
  cases D <;> simp [Decoded.mnemonic]

/-- The mnemonic of an access does not depend on its data. -/
theorem mnemonic_decodeAccess (pm : PortMap) (off : PortOffset) (wr : Bool) (d : Byte) :
    (decodeAccess pm off wr d).mnemonic = (decodeAccess pm off wr 0x00#8).mnemonic := by
  unfold decodeAccess
  cases pm.portAt off with
  | none => rfl
  | some p =>
    cases wr with
    | false => rfl
    | true =>
      cases p with
      | chan c k => cases k <;> rfl
      | _ => rfl

/-- The rows of the port accesses, offset by offset; the other two rows are of another kind. -/
theorem opcodeTable_access : ∀ row ∈ opcodeTable, ∀ (wr : Bool) (off : PortOffset),
    ((accessWord wr off 0x00#8).high &&& row.mask.high = row.pattern.high ↔
      (decodeAccess PortMap.default off wr 0x00#8).mnemonic = some row.mnemonic) ∧
    ((accessWord wr off 0x00#8).high &&& row.mask.high = row.pattern.high →
      row.mask.data = 0#8 ∧ row.pattern.data = 0#8) := by
  decide

/-- A word of a row is of the row's kind, and in the tick and reset rows has the must-be-zero bits clear. -/
theorem opcodeTable_notBad : ∀ row ∈ opcodeTable,
    row.mask.kind = 0b11#2 ∧ (row.pattern.kind = 0b00#2 ∨
      (row.pattern.kind = 0b01#2 ∧ row.mask.extractLsb' 4 10 = BitVec.allOnes 10 ∧ row.pattern.extractLsb' 4 10 = 0#10) ∨
      (row.pattern.kind = 0b10#2 ∧ row.mask.extractLsb' 0 14 = BitVec.allOnes 14 ∧ row.pattern.extractLsb' 0 14 = 0#14)) := by
  decide

/-- A word of a row is no bad event. -/
theorem not_isBad_of_row {row : OpcodeRow} (hrow : row ∈ opcodeTable) {w : EventWord} (h : w &&& row.mask = row.pattern) :
    ¬ w.isBad := by
  obtain ⟨hmask, hpat⟩ := opcodeTable_notBad row hrow
  have hkind : w.kind = row.pattern.kind := by
    have hand : w.kind &&& row.mask.kind = row.pattern.kind := by rw [← EventWord.kind_and, h]
    rw [← hand, hmask, show (0b11#2 : BitVec 2) = BitVec.allOnes 2 from rfl, BitVec.and_allOnes]
  unfold EventWord.isBad
  rw [hkind]
  rcases hpat with hp | ⟨hp, hm, hz⟩ | ⟨hp, hm, hz⟩
  · simp [hp]
  · have : w.extractLsb' 4 10 = 0#10 := by
      rw [← hz, ← h, BitVec.extractLsb'_and, hm, BitVec.and_allOnes]
    simp [hp, this]
  · have : w.extractLsb' 0 14 = 0#14 := by
      rw [← hz, ← h, BitVec.extractLsb'_and, hm, BitVec.and_allOnes]
    simp [hp, this]

/-- Settles O3, by the four forms of a word. -/
theorem opcodeTableRowsDecode : Obligations.OpcodeTableRowsDecode := by
  intro row hrow w
  rw [← Decoded.mnemonic_eq_some]
  rcases decode_cases PortMap.default w with ⟨wr, off, d, rfl, hw⟩ | ⟨q, rfl, hw⟩ | ⟨rfl, hw⟩ | ⟨hbad, hw⟩ <;> rw [hw]
  · obtain ⟨hiff, hdata⟩ := opcodeTable_access row hrow wr off
    rw [mnemonic_decodeAccess, ← hiff, EventWord.ext_iff_bytes, EventWord.high_and, EventWord.data_and,
      high_accessWord wr off d]
    refine ⟨And.left, fun hh => ⟨hh, ?_⟩⟩
    rw [(hdata hh).1, (hdata hh).2, BitVec.and_zero]
  · have hall : ∀ row ∈ opcodeTable, ∀ q, tickWord q &&& row.mask = row.pattern ↔ "TICK" = row.mnemonic := by decide
    simpa [Decoded.mnemonic, Instr.mnemonic] using hall row hrow q
  · have hall : ∀ row ∈ opcodeTable, resetWord &&& row.mask = row.pattern ↔ "RESET" = row.mnemonic := by decide
    simpa [Decoded.mnemonic, Instr.mnemonic] using hall row hrow
  · simpa [Decoded.mnemonic] using fun h => not_isBad_of_row hrow h hbad

/-! #### The illegal forms -/

/-- An access is rejected exactly when it has no mnemonic, and then by its offset and direction. -/
theorem decodeAccess_eq_reject {pm : PortMap} {off : PortOffset} {wr : Bool} {d : Byte} {e : DecodeError} :
    decodeAccess pm off wr d = .reject e ↔
      e = .portContract off wr ∧ (decodeAccess pm off wr 0x00#8).mnemonic = none := by
  rw [← mnemonic_decodeAccess pm off wr d]
  rcases decodeAccess_cases pm off wr d with ⟨_, _, _, _, h⟩ | h <;> simp [h, Decoded.mnemonic, eq_comm]

/-- The illegal accesses of the default port map, offset by offset (R72). -/
theorem default_access_illegal : ∀ (off : PortOffset) (wr : Bool),
    (decodeAccess PortMap.default off wr 0x00#8).mnemonic = none ↔
      21 ≤ off.toNat ∨ (off.toNat < 16 ∧ off.toNat % 4 = 3 ∧ wr = false) ∨ (off.toNat = 19 ∧ wr = true) ∨
        (off.toNat = 20 ∧ wr = false) := by
  decide

/-- The bad events as numbers (R72). -/
theorem EventWord.isBad_iff (w : EventWord) :
    w.isBad ↔ (0x4010 ≤ w.toNat ∧ w.toNat < 0x8000) ∨ 0x8000 < w.toNat := by
  have hw := w.isLt
  unfold EventWord.isBad
  simp only [ne_eq, ← BitVec.toNat_inj, EventWord.toNat_kind, BitVec.extractLsb'_toNat, Nat.shiftRight_eq_div_pow,
    BitVec.toNat_ofNat]
  omega

/-- The numbers that the fields of an access word are: below the other kinds, with its offset and direction (R63). -/
theorem accessWord_fields (wr : Bool) (off : PortOffset) (d : Byte) :
    (accessWord wr off d).toNat < 0x4000 ∧ (accessWord wr off d).toNat / 256 % 32 = off.toNat ∧
      ((accessWord wr off d).toNat / 8192 % 2 = 1 ↔ wr = true) := by
  have ho := off.isLt
  have hd := d.isLt
  rw [toNat_accessWord]
  cases wr <;> simp <;> omega

/-- A word is rejected as a port access exactly when it is an illegal access (R72). -/
theorem decode_eq_portContract (w : EventWord) (off : PortOffset) (wr : Bool) :
    decode PortMap.default w = .reject (.portContract off wr) ↔
      w.toNat < 0x4000 ∧ off.toNat = w.toNat / 256 % 32 ∧ (wr = true ↔ w.toNat / 8192 % 2 = 1) ∧
      (21 ≤ off.toNat ∨ (off.toNat < 16 ∧ off.toNat % 4 = 3 ∧ wr = false) ∨ (off.toNat = 19 ∧ wr = true) ∨
        (off.toNat = 20 ∧ wr = false)) := by
  rcases decode_cases PortMap.default w with ⟨wr', off', d, rfl, hw⟩ | ⟨q, rfl, hw⟩ | ⟨rfl, hw⟩ | ⟨hbad, hw⟩ <;> rw [hw]
  · obtain ⟨hkind, hoff, hwr⟩ := accessWord_fields wr' off' d
    rw [decodeAccess_eq_reject, default_access_illegal, hoff, hwr, DecodeError.portContract.injEq, BitVec.toNat_inj,
      ← Bool.eq_iff_iff]
    constructor
    · rintro ⟨⟨rfl, rfl⟩, hill⟩; exact ⟨hkind, rfl, rfl, hill⟩
    · rintro ⟨_, rfl, rfl, hill⟩; exact ⟨⟨rfl, rfl⟩, hill⟩
  · simp [toNat_tickWord]
  · simp [resetWord]
  · have hnum := w.isBad_iff.mp hbad
    simp only [Decoded.reject.injEq, reduceCtorEq, false_iff]
    omega

/-- A word is rejected as no event exactly when it is a bad event (R72). -/
theorem decode_eq_badEvent (w v : EventWord) :
    decode PortMap.default w = .reject (.badEvent v) ↔
      v = w ∧ ((0x4010 ≤ w.toNat ∧ w.toNat < 0x8000) ∨ 0x8000 < w.toNat) := by
  rcases decode_cases PortMap.default w with ⟨wr, off, d, rfl, hw⟩ | ⟨q, rfl, hw⟩ | ⟨rfl, hw⟩ | ⟨hbad, hw⟩ <;> rw [hw]
  · have hkind := (accessWord_fields wr off d).1
    simp only [decodeAccess_eq_reject, reduceCtorEq, false_and, false_iff]
    omega
  · have hq := q.isLt
    simp only [toNat_tickWord, reduceCtorEq, false_iff]
    omega
  · simp [resetWord]
  · simp [w.isBad_iff.mp hbad, eq_comm]

/-- Settles O4: each of the four forms of a word is rejected by its own name or not at all. -/
theorem rejectedWordsAreTheIllegalForms : Obligations.RejectedWordsAreTheIllegalForms :=
  fun w => ⟨decode_eq_portContract w, decode_eq_badEvent w⟩

/-- Settles O5, by running the decoder on the ten words. -/
theorem sampleWordsDecode : Obligations.SampleWordsDecode := by
  unfold Obligations.SampleWordsDecode
  decide

end Sys2Proof
end

section
/-! The state after a tick that services a channel, register by register (`State.afterTick`), and what each transfer type
and each kind of terminal count makes of it (43_transfer_engine.md R133 to R141, 44_service_scheduler.md R152 to R158). -/

namespace Sys2Proof.Machine

open Sys2Proof

/-! #### The tick and the state after it -/

/-- A tick that services a channel answers the state after it (R150). -/
theorem exec_tick_of_services {s : State} {q : Nibble} {c : Chan} (h : Services s q c) :
    exec (.tick q) s = .next (s.afterTick q c s.inputs) :=
  execTick_services h

/-- A tick that answers a state had nothing to service or serviced one channel. -/
theorem exec_tick_cases {s t : State} {q : Nibble} (h : exec (.tick q) s = .next t) :
    ((enabled s.dmac.cmd = false ∨ s.eligibleAt q = 0#4) ∧ t = s) ∨
    ∃ c, Services s q c ∧ t = s.afterTick q c s.inputs := by
  cases effect_of_exec h with
  | idle _ hidle => exact .inl ⟨hidle, rfl⟩
  | service _ c hs => exact .inr ⟨c, hs, rfl⟩

/-- A serviced channel is not masked (R152). -/
theorem Services.unmasked {s : State} {q : Nibble} {c : Chan} (h : Services s q c) :
    s.dmac.mask.getLsbD c.val = false := by
  obtain ⟨-, hsel, -⟩ := h
  exact (eligible_of_selectAt hsel).2

/-- A tick services one channel. -/
theorem Services.unique {s : State} {q : Nibble} {c d : Chan} (hc : Services s q c) (hd : Services s q d) : c = d := by
  obtain ⟨-, hselc, -⟩ := hc
  obtain ⟨-, hseld, -⟩ := hd
  exact Option.some.inj (hselc.symm.trans hseld)

/-- An idle tick services no channel (R151, R154). -/
theorem not_services_of_idle {s : State} {q : Nibble} {c : Chan} (h : enabled s.dmac.cmd = false ∨ s.eligibleAt q = 0#4) :
    ¬ Services s q c := by
  rintro ⟨hen, hsel, -⟩
  rcases h with hdis | he
  · exact absurd (hdis.symm.trans hen) (by decide)
  · exact absurd (((selectAt_eq_none s q).mpr he).symm.trans hsel) (by simp)

namespace State

section

variable (s : State) (q : Nibble) (c : Chan) (rest : List Input)

@[simp] theorem afterTick_bff : (s.afterTick q c rest).dmac.bff = s.dmac.bff := by simp [afterTick]

/-- `STATUS` after a tick: the request flags, then the terminal-count flag (R138, R139, R153). -/
theorem afterTick_status :
    (s.afterTick q c rest).dmac.status =
      if isTerminalCount (s.chan c).wcur && (!autoinitializes (s.chan c).mode || s.cfg.tcFlagOnAutoinit) then
        withTc (withRequests s.dmac.status (s.eligibleAt q)) c
      else withRequests s.dmac.status (s.eligibleAt q) := by
  simp only [afterTick, setLast_status, transferUnit_status]; rfl

/-- A free byte is drawn when the supply is empty (R173). -/
theorem takeCardByte_draws : (s.takeCardByte c).draws = if s.supply[c] = [] then s.draws + 1 else s.draws := by
  unfold takeCardByte
  split <;> simp [*]

theorem afterTick_draws :
    (s.afterTick q c rest).draws =
      if transferType (s.chan c).mode = .write then (s.takeCardByte c).draws else s.draws := by
  simp only [afterTick, setLast_draws, transferUnit_draws, moveUnit_draws, takeCardByte_draws]; rfl

/-- A tick changes a terminal-count flag only by setting the serviced channel's at a terminal count (R138, R139). -/
theorem tcFlag_afterTick (d : Chan) :
    (s.afterTick q c rest).dmac.status.getLsbD d.val = true ↔
      s.dmac.status.getLsbD d.val = true ∨
      (d = c ∧ (s.chan c).wcur = 0x0000#16 ∧ (autoBit (s.chan c) = false ∨ s.cfg.tcFlagOnAutoinit = true)) := by
  show tcFlag _ d = true ↔ tcFlag s.dmac.status d = true ∨ _ ∧ _ ∧ (autoinitializes (s.chan c).mode = false ∨ _)
  rw [afterTick_status]
  split
  · next htc =>
    simp only [Bool.and_eq_true, Bool.or_eq_true, Bool.not_eq_true', isTerminalCount_eq_true] at htc
    simp [tcFlag_withTc, tcFlag_withRequests, htc]
  · next htc =>
    simp only [Bool.and_eq_true, Bool.or_eq_true, Bool.not_eq_true', isTerminalCount_eq_true] at htc
    simp [tcFlag_withRequests, htc]

/-- A tick sets the request flag of every eligible channel (R153). -/
theorem rqFlag_afterTick (d : Chan) :
    rqFlag (s.afterTick q c rest).dmac.status d = (rqFlag s.dmac.status d || bitOf (s.eligibleAt q) d) := by
  rw [afterTick_status]
  split <;> simp only [rqFlag_withTc, rqFlag_withRequests]

/-- A tick masks the serviced channel at a terminal count without autoinitialize, and no other channel (R139). -/
theorem maskBit_afterTick (d : Chan) :
    (s.afterTick q c rest).dmac.mask.getLsbD d.val = true ↔
      s.dmac.mask.getLsbD d.val = true ∨
      (d = c ∧ (s.chan c).wcur = 0x0000#16 ∧ autoBit (s.chan c) = false) := by
  show bitOf _ d = true ↔ bitOf s.dmac.mask d = true ∨ _ ∧ _ ∧ autoinitializes (s.chan c).mode = false
  rw [afterTick_mask]
  split
  · next htc =>
    simp only [Bool.and_eq_true, Bool.not_eq_true', isTerminalCount_eq_true] at htc
    simp [bitOf_withBit, htc]
  · next htc =>
    simp only [Bool.and_eq_true, Bool.not_eq_true', isTerminalCount_eq_true] at htc
    simp [htc]

/-- A tick withdraws the software request of the serviced channel at a terminal count, and no other (R140). -/
theorem reqBit_afterTick (d : Chan) :
    (s.afterTick q c rest).dmac.req.getLsbD d.val = true ↔
      s.dmac.req.getLsbD d.val = true ∧ ¬ (d = c ∧ (s.chan c).wcur = 0x0000#16) := by
  show bitOf _ d = true ↔ bitOf s.dmac.req d = true ∧ _
  rw [afterTick_req]
  split
  · next htc => simp [bitOf_withoutBit, (isTerminalCount_eq_true _).mp htc]
  · next htc => simp [(isTerminalCount_eq_false _).mp (Bool.eq_false_iff.mpr htc)]

/-- Short of a terminal count `MASK` stays (R139). -/
theorem afterTick_mask_of_ne_zero (h : (s.chan c).wcur ≠ 0x0000#16) : (s.afterTick q c rest).dmac.mask = s.dmac.mask := by
  simp [afterTick_mask, (isTerminalCount_eq_false _).mpr h]

/-- Short of a terminal count `REQ` stays (R140). -/
theorem afterTick_req_of_ne_zero (h : (s.chan c).wcur ≠ 0x0000#16) : (s.afterTick q c rest).dmac.req = s.dmac.req := by
  simp [afterTick_req, (isTerminalCount_eq_false _).mpr h]

/-- A tick stores at most the card's byte of a write transfer, at `Phys(C, 0)` (R45, R133). -/
theorem afterTick_byteAt_of_ne {a : PhysAddr}
    (h : (s.chan c).mode.extractLsb' 2 2 ≠ 0b01#2 ∨ a ≠ s.phys c 0#16) :
    (s.afterTick q c rest).byteAt a = s.byteAt a := by
  rw [byteAt, byteAt, afterTick_mem]
  split
  · next hw => exact byteAt_setByte_of_ne s _ (h.resolve_left (not_not_intro ((transferType_eq_write _).mp hw)))
  · rfl

/-- A write transfer stores the card's byte at `Phys(C, 0)` (R133). -/
theorem afterTick_byteAt_of_write (hm : s.mem.wf = true) (hw : (s.chan c).mode.extractLsb' 2 2 = 0b01#2) :
    (s.afterTick q c rest).byteAt (s.phys c 0#16) = s.cardNext c := by
  rw [byteAt, afterTick_mem, if_pos ((transferType_eq_write _).mpr hw)]
  exact byteAt_setByte_self hm _ _

/-- The byte pointer that a unit leaves when nothing is reloaded (R134). -/
theorem afterTick_bptr (h : (s.chan c).wcur ≠ 0x0000#16 ∨ autoBit (s.chan c) = false) :
    ((s.afterTick q c rest).chan c).bptr = (s.chan c).movedBptr := by
  rw [afterTick_chan_self, Channel.afterUnit_counted h]
  rfl

/-- A tick that services no write transfer leaves the surroundings alone (R133). -/
theorem sameSurroundings_afterTick (h : (s.chan c).mode.extractLsb' 2 2 ≠ 0b01#2) :
    SameSurroundings s (s.afterTick q c s.inputs) := by
  have hw := (transferType_eq_write _).not.mpr h
  exact ⟨fun a => afterTick_byteAt_of_ne s q c _ (.inl h), afterTick_cfg .., afterTick_inputs ..,
    by simp [afterTick_supply, hw], by simp [afterTick_draws, hw]⟩

end

/-- The signals of action 2 of each transfer type (R133). -/
theorem moveSignals_read {s : State} {c : Chan} (h : (s.chan c).mode.extractLsb' 2 2 = 0b10#2) :
    s.moveSignals c =
      [.memRead (s.phys c 0#16) (s.byteAt (s.phys c 0#16)), .devPut c (s.chan c).bptr (s.byteAt (s.phys c 0#16))] := by
  simp [moveSignals, (transferType_eq_read _).mpr h]

theorem moveSignals_write {s : State} {c : Chan} (h : (s.chan c).mode.extractLsb' 2 2 = 0b01#2) :
    s.moveSignals c = [.devGet c (s.chan c).bptr (s.cardNext c), .memWrite (s.phys c 0#16) (s.cardNext c)] := by
  simp [moveSignals, (transferType_eq_write _).mpr h]

theorem moveSignals_verify {s : State} {c : Chan} (h : (s.chan c).mode.extractLsb' 2 2 = 0b00#2) :
    s.moveSignals c = [] := by
  simp [moveSignals, (transferType_eq_verify _).mpr h]

/-- An unmasked channel is armed (R30). -/
theorem phase_eq_armed (s : State) (c : Chan) : s.phase c = .armed ↔ s.dmac.mask.getLsbD c.val = false := by
  unfold State.phase State.armed bitOf
  cases s.dmac.mask.getLsbD c.val <;> simp

end State

/-- A moved byte takes the byte pointer one further (R134). -/
theorem Channel.toNat_movedBptr {ch : Channel}
    (h : ch.mode.extractLsb' 2 2 = 0b10#2 ∨ ch.mode.extractLsb' 2 2 = 0b01#2) :
    ch.movedBptr.toNat = (ch.bptr.toNat + 1) % 65536 := by
  rw [← transferType_eq_read, ← transferType_eq_write] at h
  rcases h with h | h <;> simp [Channel.movedBptr, h]

/-- A verify transfer leaves the byte pointer (R134). -/
theorem Channel.movedBptr_verify {ch : Channel} (h : ch.mode.extractLsb' 2 2 = 0b00#2) : ch.movedBptr = ch.bptr := by
  simp [Channel.movedBptr, (transferType_eq_verify _).mpr h]

/-! #### The transfer types -/

/-- Settles O33, from the signals of a read transfer (`moveSignals_read`). -/
theorem readTransferTick : Obligations.ReadTransferTick := by
  intro s q c hs hread
  have hnw : (s.chan c).mode.extractLsb' 2 2 ≠ 0b01#2 := by simp [hread]
  refine ⟨_, exec_tick_of_services hs, ?_, fun hplain => ?_, s.sameSurroundings_afterTick q c hnw⟩
  · rw [State.afterTick_trace, State.moveSignals_read hread, State.afterTick_chan_self]
  · rw [State.afterTick_bptr _ _ _ _ hplain, Channel.toNat_movedBptr (.inl hread)]

/-- Settles O34: the byte is the one the card supplies next (`State.cardNext`). -/
theorem writeTransferTick : Obligations.WriteTransferTick := by
  intro s q c hm hs hwrite
  have hsupply : (s.afterTick q c s.inputs).supply = s.supply.set c s.supply[c].tail := by
    rw [State.afterTick_supply, if_pos ((transferType_eq_write _).mpr hwrite)]
  refine ⟨_, s.cardNext c, exec_tick_of_services hs, fun w more hw => ⟨State.cardNext_cons hw, by simp [hsupply, hw]⟩,
    fun hnil => ?_, ?_, fun hplain => ?_, s.afterTick_byteAt_of_write q c _ hm hwrite,
    fun a ha => s.afterTick_byteAt_of_ne q c _ (.inr ha), State.afterTick_cfg .., State.afterTick_inputs ..⟩
  · rw [hsupply, hnil, List.tail_nil, ← hnil]
    exact Vector.set_getElem_self _
  · rw [State.afterTick_trace, State.moveSignals_write hwrite, State.afterTick_chan_self]
  · rw [State.afterTick_bptr _ _ _ _ hplain, Channel.toNat_movedBptr (.inr hwrite)]

/-- Settles O35: a verify transfer has no signals of its own (`moveSignals_verify`). -/
theorem verifyTransferTick : Obligations.VerifyTransferTick := by
  intro s q c hs hverify
  have hnw : (s.chan c).mode.extractLsb' 2 2 ≠ 0b01#2 := by simp [hverify]
  refine ⟨_, exec_tick_of_services hs, ?_, fun hplain => ?_, s.sameSurroundings_afterTick q c hnw⟩
  · rw [State.afterTick_trace, State.moveSignals_verify hverify, State.afterTick_chan_self, List.append_nil]
  · rw [State.afterTick_bptr _ _ _ _ hplain, Channel.movedBptr_verify hverify]

/-- Settles O41: of all operations a tick of a write transfer alone stores, and only there (`afterTick_byteAt_of_ne`). -/
theorem onlyWriteTransfersStore : Obligations.OnlyWriteTransfersStore := by
  intro i s t a h hne
  cases effect_of_exec h with
  | service q c hs =>
    by_contra hcon
    refine hne (s.afterTick_byteAt_of_ne q c s.inputs ?_)
    by_contra! hboth
    exact hcon ⟨q, c, rfl, hs, hboth.1, hboth.2⟩
  | _ => exact absurd rfl hne

/-! #### The terminal count -/

/-- A masked channel is not serviced (R152). -/
theorem not_services_of_masked {s : State} {q : Nibble} {c : Chan} (h : s.dmac.mask.getLsbD c.val = true) :
    ¬ Services s q c := fun hs => absurd (h.symm.trans hs.unmasked) (by decide)

/-- A tick leaves the registers of every channel it does not service (R130). -/
theorem exec_tick_chan_of_not_services {s t : State} {q : Nibble} {c : Chan} (h : exec (.tick q) s = .next t)
    (hs : ¬ Services s q c) : t.chan c = s.chan c := by
  rcases exec_tick_cases h with ⟨-, rfl⟩ | ⟨d, hd, rfl⟩
  · rfl
  · exact State.afterTick_chan_of_ne _ _ _ _ fun e => hs (e ▸ hd)

/-- Only a mask write unmasks a channel (R36). -/
theorem unmasked_only_by_wrMask {i : Instr} {s t : State} {c : Chan} (hm : s.dmac.mask.getLsbD c.val = true)
    (h : exec i s = .next t) (ht : t.dmac.mask.getLsbD c.val = false) : ∃ b, i = .wrMask b := by
  cases effect_of_exec h with
  | wrMask b => exact ⟨b, rfl⟩
  | service q d hs =>
    have hstill := (s.maskBit_afterTick q d s.inputs c).mpr (.inl hm)
    exact absurd (hstill.symm.trans ht) (by decide)
  | reset =>
    have hreset : ∀ c : Chan, resetRegisters.mask.getLsbD c.val = true := by decide
    exact absurd ((hreset c).symm.trans ht) (by decide)
  | _ => exact absurd (hm.symm.trans ht) (by decide)

/-- Settles O37: the registers are the counted ones, and a masked channel is neither serviced nor unmasked but by a mask
write. -/
theorem plainTerminalCount : Obligations.PlainTerminalCount := by
  intro s q c hs hz ha
  have hmask : (s.afterTick q c s.inputs).dmac.mask.getLsbD c.val = true :=
    (s.maskBit_afterTick q c _ c).mpr (.inr ⟨rfl, hz, ha⟩)
  have hchan : (s.afterTick q c s.inputs).chan c = (s.chan c).counted := by
    rw [State.afterTick_chan_self, Channel.afterUnit_counted (.inr ha)]
  refine ⟨_, exec_tick_of_services hs, hmask, (s.tcFlag_afterTick q c _ c).mpr (.inr ⟨rfl, hz, .inl ha⟩),
    (State.phase_eq_idle _ c).mpr hmask, ?_, ?_, ?_, fun u v q' hu hv => ?_, fun u v i hu hv => unmasked_only_by_wrMask hu hv,
    ⟨_, rfl, rfl, rfl⟩⟩
  · simp [hchan, Channel.counted, hz]
  · rw [hchan]
    exact (s.chan c).toNat_counted.2
  · simp [hchan, Channel.counted, State.moveUnit_chan]
  · have hnot := not_services_of_masked (q := q') hu
    exact ⟨hnot, exec_tick_chan_of_not_services hv hnot⟩

/-- Settles O38: the registers are the reloaded ones (`Channel.afterUnit_reloaded`). -/
theorem autoinitializeTerminalCount : Obligations.AutoinitializeTerminalCount := by
  intro s q c hs hz ha
  have ha' : autoinitializes (s.chan c).mode = true := ha
  have hchan : (s.afterTick q c s.inputs).chan c =
      { s.chan c with acur := (s.chan c).abase, wcur := (s.chan c).wbase, bptr := 0x0000#16 } := by
    rw [State.afterTick_chan_self, Channel.afterUnit_reloaded hz ha']
  have hmask : (s.afterTick q c s.inputs).dmac.mask = s.dmac.mask := by simp [State.afterTick_mask, ha']
  refine ⟨_, exec_tick_of_services hs, by simp [hchan], by simp [hchan], by simp [hchan], hmask, ?_, ?_⟩
  · rw [State.phase_eq_armed, hmask]
    exact hs.unmasked
  · rw [State.tcFlag_afterTick]
    simp [hz, ha, or_comm]

/-- Settles O39, from the request bits after a tick (`reqBit_afterTick`). -/
theorem requestBitAtTerminalCount : Obligations.RequestBitAtTerminalCount := by
  intro s q c hs
  refine ⟨_, exec_tick_of_services hs, fun hz => ⟨?_, fun d hd => ?_⟩, s.afterTick_req_of_ne_zero q c _⟩
  · rw [Bool.eq_false_iff, ne_eq, State.reqBit_afterTick]
    exact fun h => h.2 ⟨rfl, hz⟩
  · rw [Bool.eq_iff_iff, State.reqBit_afterTick]
    simp [hd]

/-- Settles O40, register by register of the state after the tick. -/
theorem tickLeavesOtherChannels : Obligations.TickLeavesOtherChannels := by
  intro s q c hs
  refine ⟨_, exec_tick_of_services hs, fun d hd => s.afterTick_chan_of_ne q c _ hd, State.afterTick_cmd ..,
    State.afterTick_bff .., State.afterTick_last .., fun d hd => ⟨?_, ?_⟩, fun hz => ⟨?_, ?_⟩, State.afterTick_cfg ..,
    State.afterTick_inputs ..⟩
  · rw [Bool.eq_iff_iff, State.maskBit_afterTick]
    simp [hd]
  · rw [Bool.eq_iff_iff, State.tcFlag_afterTick]
    simp [hd]
  · exact s.afterTick_mask_of_ne_zero q c _ hz
  · rw [Bool.eq_iff_iff, State.tcFlag_afterTick]
    simp [hz]

/-- A tick completes the channel it services, at a terminal count (R141). -/
theorem State.completions_afterTick (s : State) (q : Nibble) (c d : Chan) (rest : List Input) :
    completions c (s.afterTick q d rest).trace =
      completions c s.trace + if (s.chan d).wcur = 0x0000#16 ∧ d = c then 1 else 0 := by
  simp [State.afterTick_trace]

/-- Settles O45: a tick signals a completion at a terminal count of the channel it services, and `Effect` shows no other
operation signal one. -/
theorem completionExactlyAtTerminalCount : Obligations.CompletionExactlyAtTerminalCount := by
  intro i s t c h
  cases i with
  | tick q =>
    rcases exec_tick_cases h with ⟨hidle, rfl⟩ | ⟨d, hs, rfl⟩
    · refine ⟨?_, fun _ => rfl⟩
      rintro ⟨q', hq, hc, -⟩
      cases hq
      exact absurd hc (not_services_of_idle hidle)
    · rw [State.completions_afterTick]
      constructor
      · rintro ⟨q', hq, hc, hz⟩
        cases hq
        obtain rfl := hs.unique hc
        simp [hz]
      · intro hnot
        have hdone : ¬ ((s.chan d).wcur = 0x0000#16 ∧ d = c) := by
          rintro ⟨hz, rfl⟩
          exact hnot ⟨q, rfl, hs, hz⟩
        rw [if_neg hdone, Nat.add_zero]
  | _ =>
    refine ⟨?_, fun _ => ?_⟩
    · rintro ⟨_, hi, _⟩
      cases hi
    · cases effect_of_exec h
      simp [completions]

/-! #### Request flags and the rotating policy -/

/-- Settles O29: an idle tick of an enabled controller has no eligible channel, a serviced one flags the eligible set. -/
theorem requestFlagsOfATick : Obligations.RequestFlagsOfATick := by
  intro s t q hen h c
  show rqFlag t.dmac.status c = true ↔ rqFlag s.dmac.status c = true ∨ _
  rcases exec_tick_cases h with ⟨hdis | he, rfl⟩ | ⟨d, -, rfl⟩
  · exact absurd (hdis.symm.trans hen) (by decide)
  · simp [(eligibleAt_eq_zero_iff _ _).mp he c]
  · rw [State.rqFlag_afterTick, Bool.or_eq_true, bitOf_eligibleAt]

/-- How far a channel stands behind the one last serviced, as a number (R156). -/
theorem rotation_le_iff (last c d : Chan) :
    c - last - 1 ≤ d - last - 1 ↔ (c.val + 7 - last.val) % 4 ≤ (d.val + 7 - last.val) % 4 := by
  revert last c d; decide

/-- Settles O31, from the rotating pick (`rotatingPick_eq_some`). -/
theorem rotatingPriority : Obligations.RotatingPriority := by
  intro s q c hrot
  have hpick : s.selectAt q = rotatingPick (s.eligibleAt q) s.dmac.last := if_pos hrot
  rw [hpick, rotatingPick_eq_some]
  simp only [bitOf_eligibleAt, rotation_le_iff]

end Sys2Proof.Machine
end

section
/-! The faults of the operations (60_exceptions.md R180): each check written out (`checkNotArmed_eq_some`,
`checkRequests_eq_some`, `admission_eq_some`), and which operation makes it (`fault_of_exec`). -/

namespace Sys2Proof.Machine

open Sys2Proof

/-! #### The checks -/

/-- The check of a programming write finds fault 1, with strict preconditions on an armed channel (R84). -/
theorem checkNotArmed_eq_some {s : State} {c : Chan} {k : ChanPort} {b : Byte} {f : Fault} :
    s.checkNotArmed c k b = some f ↔
      (s.cfg.strict = true ∧ s.dmac.mask.getLsbD c.val = false) ∧
        f = .programWhileArmed c (s.cfg.portMap.offsetOf (.chan c k)) b := by
  have harmed : s.armed c = true ↔ s.dmac.mask.getLsbD c.val = false := by simp [State.armed, bitOf]
  rw [State.checkNotArmed, Option.ite_none_right_eq_some, Bool.and_eq_true, harmed, Option.some.injEq, eq_comm (a := f)]

/-- The check of a programming write passes where the write is allowed (R84). -/
theorem checkNotArmed_eq_none {s : State} {c : Chan} (h : MayProgram s c) (k : ChanPort) (b : Byte) :
    s.checkNotArmed c k b = none := by
  rw [Option.eq_none_iff_forall_ne_some]
  intro f hf
  obtain ⟨⟨hstrict, hmask⟩, -⟩ := checkNotArmed_eq_some.mp hf
  rcases h with h | h
  · exact absurd (hstrict.symm.trans h) (by decide)
  · exact absurd (h.symm.trans hmask) (by decide)

/-- The first of the four channels with a property is the least one with it. -/
theorem find_channels_eq_some : ∀ (p : Chan → Bool) (c : Chan),
    channels.find? p = some c ↔ p c = true ∧ ∀ d, d < c → p d = false := by
  decide

/-- A write of `b` turns on the request of the masked channel `c` (R103). -/
def TurnsOnMasked (s : State) (b : Byte) (c : Chan) : Prop :=
  b.getLsbD c.val = true ∧ s.dmac.req.getLsbD c.val = false ∧ s.dmac.mask.getLsbD c.val = true

/-- The check of a request write finds fault 2 of the lowest channel it turns on while masked (R103). -/
theorem checkRequests_eq_some {s : State} {b : Byte} {f : Fault} :
    s.checkRequests b = some f ↔ s.cfg.strict = true ∧
      ∃ c, f = .requestMasked c b ∧ TurnsOnMasked s b c ∧ ∀ d, d < c → ¬ TurnsOnMasked s b d := by
  have hbits (c : Chan) :
      (bitOf (lowNibble b) c && !bitOf s.dmac.req c && bitOf s.dmac.mask c) = true ↔ TurnsOnMasked s b c := by
    rw [bitOf_lowNibble]
    simp [TurnsOnMasked, bitOf, and_assoc]
  unfold State.checkRequests
  rw [Option.ite_none_right_eq_some, Option.map_eq_some_iff]
  simp only [find_channels_eq_some, ← Bool.not_eq_true, hbits, eq_comm (a := f), and_comm]

/-- The check of a request write passes when no masked channel's request is turned on (R103). -/
theorem checkRequests_eq_none {s : State} {b : Byte} (h : s.cfg.strict = false ∨ ∀ c, ¬ TurnsOnMasked s b c) :
    s.checkRequests b = none := by
  rw [Option.eq_none_iff_forall_ne_some]
  intro f hf
  obtain ⟨hstrict, c, -, hc, -⟩ := checkRequests_eq_some.mp hf
  rcases h with h | h
  · exact absurd (hstrict.symm.trans h) (by decide)
  · exact h c hc

/-- The three forms the engine does not step, in the order of R132. -/
theorem admission_eq_some {s : State} {c : Chan} {f : Fault} :
    s.admission c = some f ↔
      (s.cfg.cards[c] = none ∧ f = .noCard c) ∨
      (s.cfg.cards[c] ≠ none ∧ (s.chan c).mode.extractLsb' 2 2 = 0b11#2 ∧ f = .reservedType c (s.chan c).mode) ∨
      (s.cfg.cards[c] ≠ none ∧ (s.chan c).mode.extractLsb' 2 2 ≠ 0b11#2 ∧ (s.chan c).mode.extractLsb' 6 2 = 0b11#2 ∧
        f = .cascade c (s.chan c).mode) := by
  simp only [ne_eq, ← transferType_eq_reserved, ← transferMode_eq_cascade]
  unfold State.admission
  generalize s.cfg.cards[c] = card
  cases card with
  | none => simp [eq_comm (a := f)]
  | some card =>
    by_cases htype : transferType (s.chan c).mode = .reserved
    · simp [htype, eq_comm (a := f)]
    · by_cases hmode : transferMode (s.chan c).mode = .cascade
      · simp [htype, hmode, eq_comm (a := f)]
      · simp [htype, hmode]

/-- A tick ends in exactly the fault the selected channel is not admitted with (R132, R150). -/
theorem exec_tick_eq_fault {s : State} {q : Nibble} {f : Fault} :
    exec (.tick q) s = .fault f ↔ enabled s.dmac.cmd = true ∧ ∃ c, s.selectAt q = some c ∧ s.admission c = some f := by
  show execTick q s = _ ↔ _
  unfold execTick
  cases hen : enabled s.dmac.cmd with
  | false => simp
  | true =>
    cases hsel : s.selectAt q with
    | none => simp
    | some c => simp [servicedBy_eq_fault, engineStep, unlessFault_eq_fault]

/-! #### The faults of all operations -/

/-- Why an operation ends in a fault: one case per row of R180 that an operation can raise. -/
inductive FaultCause (s : State) (i : Instr) : Fault → Prop where
  | programWhileArmed (c : Chan) (k : ChanPort) (b : Byte) : s.cfg.strict = true → s.dmac.mask.getLsbD c.val = false →
      (i = .wrAddr c b ∨ i = .wrWc c b ∨ i = .wrMode c b) →
      FaultCause s i (.programWhileArmed c (s.cfg.portMap.offsetOf (.chan c k)) b)
  | requestMasked (c : Chan) (b : Byte) : s.cfg.strict = true → TurnsOnMasked s b c → i = .wrReq b →
      FaultCause s i (.requestMasked c b)
  | noCard (q : Nibble) (c : Chan) : s.cfg.cards[c] = none → i = .tick q → s.selectAt q = some c →
      FaultCause s i (.noCard c)
  | reservedType (q : Nibble) (c : Chan) : (s.chan c).mode.extractLsb' 2 2 = 0b11#2 → i = .tick q →
      s.selectAt q = some c → FaultCause s i (.reservedType c (s.chan c).mode)
  | cascade (q : Nibble) (c : Chan) : (s.chan c).mode.extractLsb' 6 2 = 0b11#2 → i = .tick q →
      s.selectAt q = some c → FaultCause s i (.cascade c (s.chan c).mode)

/-- A programming write faults for the cause its check finds (R84). -/
theorem FaultCause.of_checkNotArmed {s : State} {i : Instr} {c : Chan} {k : ChanPort} {b : Byte} {t : State} {f : Fault}
    (h : unlessFault (s.checkNotArmed c k b) t = .fault f) (hi : i = .wrAddr c b ∨ i = .wrWc c b ∨ i = .wrMode c b) :
    FaultCause s i f := by
  obtain ⟨⟨hstrict, hmask⟩, rfl⟩ := checkNotArmed_eq_some.mp (unlessFault_eq_fault.mp h)
  exact .programWhileArmed c k b hstrict hmask hi

/-- Every fault of an operation has one of the listed causes. -/
theorem faultCause_of_exec {i : Instr} {s : State} {f : Fault} (h : exec i s = .fault f) : FaultCause s i f := by
  cases i with
  | wrAddr c b => exact .of_checkNotArmed h (.inl rfl)
  | wrWc c b => exact .of_checkNotArmed h (.inr (.inl rfl))
  | wrMode c b => exact .of_checkNotArmed h (.inr (.inr rfl))
  | wrReq b =>
    obtain ⟨hstrict, c, rfl, hon, -⟩ := checkRequests_eq_some.mp (unlessFault_eq_fault.mp h)
    exact .requestMasked c b hstrict hon rfl
  | tick q =>
    obtain ⟨-, c, hsel, hadm⟩ := exec_tick_eq_fault.mp h
    rcases admission_eq_some.mp hadm with ⟨hcard, rfl⟩ | ⟨-, htype, rfl⟩ | ⟨-, -, hmode, rfl⟩
    · exact .noCard q c hcard rfl hsel
    · exact .reservedType q c htype rfl hsel
    · exact .cascade q c hmode rfl hsel
  | _ => cases h

/-- No operation is refused. -/
theorem exec_ne_refused (i : Instr) (s : State) (r : Refusal) : exec i s ≠ .refused r := by
  cases i with
  | wrAddr | wrWc | wrMode | wrReq => exact unlessFault_ne_refused _ _ r
  | tick q =>
    intro h
    rcases execTick_cases q s with ⟨-, h'⟩ | ⟨_, -, h'⟩ | ⟨_, _, -, -, -, h'⟩ <;> cases h.symm.trans h'
  | _ => nofun

/-- Settles O32: the tick's fault is the selected channel's, and a tick that does not fault answers a state. -/
theorem tickFaultsExactly : Obligations.TickFaultsExactly := by
  intro s q
  refine ⟨fun f => ?_, fun hno => ?_⟩
  · rw [exec_tick_eq_fault]
    refine and_congr_right fun _ => exists_congr fun c => and_congr_right fun _ => ?_
    rw [admission_eq_some]
    refine or_congr ?_ (or_congr ?_ ?_)
    · exact and_congr_right fun _ => (and_iff_left_of_imp fun e => e ▸ rfl).symm
    · exact and_congr_right fun _ => and_congr_right fun _ => (and_iff_left_of_imp fun e => e ▸ rfl).symm
    · exact and_congr_right fun _ => and_congr_right fun _ => and_congr_right fun _ =>
        (and_iff_left_of_imp fun e => e ▸ rfl).symm
  · cases h : exec (.tick q) s with
    | next t => exact ⟨t, rfl⟩
    | fault f => exact absurd h (hno f)
    | refused r => exact absurd h (exec_ne_refused _ s r)

/-- Settles O21, from what the check of the request write finds. -/
theorem requestWriteFaultsAtLowestChannel : Obligations.RequestWriteFaultsAtLowestChannel := by
  intro s b f hstrict
  show unlessFault (s.checkRequests b) _ = _ ↔ _
  rw [unlessFault_eq_fault, checkRequests_eq_some, and_iff_right hstrict]
  refine exists_congr fun c => and_congr_right fun hf => ?_
  have hcode : f.code = 2 := by rw [hf]; rfl
  exact (and_iff_right hcode).symm

/-- Settles O17, from what the check of the programming writes finds. -/
theorem programmingArmedChannelFaults : Obligations.ProgrammingArmedChannelFaults := by
  intro s c b hstrict hmask
  have hcheck (k : ChanPort) := (checkNotArmed_eq_some (k := k) (b := b)).mpr ⟨⟨hstrict, hmask⟩, rfl⟩
  exact ⟨unlessFault_eq_fault.mpr (hcheck .addr), unlessFault_eq_fault.mpr (hcheck .wc),
    unlessFault_eq_fault.mpr (hcheck .mode), fun _ => rfl⟩

/-- Settles O49: the cause of each fault is the row of the table (`faultCause_of_exec`). -/
theorem onlyListedFaults : Obligations.OnlyListedFaults := by
  intro i s
  refine ⟨exec_ne_refused i s, fun c off b h => ?_, fun c b h => ?_, fun c m h => ?_, fun c m h => ?_, fun c h => ?_,
    fun off w h => ?_, fun w h => ?_⟩
  · cases faultCause_of_exec h with
    | programWhileArmed _ _ _ hstrict hmask hi => exact ⟨hstrict, hmask, hi⟩
  · cases faultCause_of_exec h with
    | requestMasked _ _ hstrict hon hi => exact ⟨hstrict, hi, hon⟩
  · cases faultCause_of_exec h with
    | reservedType q _ htype hi hsel => exact ⟨⟨q, hi, hsel⟩, rfl, htype⟩
  · cases faultCause_of_exec h with
    | cascade q _ hmode hi hsel => exact ⟨⟨q, hi, hsel⟩, rfl, hmode⟩
  · cases faultCause_of_exec h with
    | noCard q _ hcard hi hsel => exact ⟨⟨q, hi, hsel⟩, hcard⟩
  · cases faultCause_of_exec h
  · cases faultCause_of_exec h

end Sys2Proof.Machine
end

section
/-! The step and the port operations (40_channel_ports.md R80 to R87, 41_global_ports.md R100 to R107): the state each
allowed write answers, the sequences of R76, and the order of CPU accesses and ticks (20_memory.md R52). -/

namespace Sys2Proof.Machine

open Sys2Proof

/-! #### The step -/

/-- Settles O6. -/
theorem stepRunsDecodedWord : Obligations.StepRunsDecodedWord := by
  intro s w rest i hin hdec
  rw [step_op hin, runWord]
  simp [hdec]

/-- A word the decoder rejects ends the step in the rejection's fault (R72). -/
theorem step_of_reject {s : State} {w : EventWord} {rest : List Input} {e : DecodeError}
    (hin : s.inputs = .op w :: rest) (hdec : decode s.cfg.portMap w = .reject e) : step s = .fault (faultOfDecode e) := by
  rw [step_op hin, runWord]
  simp [hdec]

/-- A word is rejected as no event only by its own name (R72). -/
theorem eq_of_decode_badEvent {pm : PortMap} {w v : EventWord} (h : decode pm w = .reject (.badEvent v)) : v = w := by
  rcases decode_cases pm w with ⟨wr, off, d, -, hw⟩ | ⟨q, -, hw⟩ | ⟨-, hw⟩ | ⟨-, hw⟩ <;> rw [hw] at h
  · rcases decodeAccess_cases pm off wr d with ⟨_, _, -, -, ha⟩ | ha <;> cases ha.symm.trans h
  · cases h
  · cases h
  · cases h; rfl

/-- Settles O7 (`step_of_reject`). -/
theorem stepFaultsOnIllegalWord : Obligations.StepFaultsOnIllegalWord := by
  intro s w rest hin
  refine ⟨fun off wr hdec => ⟨_, step_of_reject hin hdec, rfl, rfl⟩, fun v hdec => ?_⟩
  obtain rfl := eq_of_decode_badEvent hdec
  exact ⟨_, step_of_reject hin hdec, rfl, rfl⟩

/-- The word of an operation at the head of the queue runs it (R52, R62). -/
theorem step_encode {s : State} {i : Instr} {rest : List Input} (hpm : s.cfg.portMap.oneToOne = true)
    (hin : s.inputs = .op (encode s.cfg.portMap i) :: rest) : step s = exec i { s with inputs := rest } :=
  stepRunsDecodedWord s _ rest i hin (decodeOfEncode _ i hpm)

/-! #### Channel ports -/

section

variable (s : State) (c : Chan) (b : Byte)

/-- The state after an allowed write to the address port (R81). -/
def State.putAddr : State :=
  (s.setChan c { s.chan c with abase := insertByte s.dmac.bff (s.chan c).abase b, acur := insertByte s.dmac.bff (s.chan c).abase b, bptr := 0x0000#16 }).toggleBff

/-- The state after an allowed write to the word-count port (R83). -/
def State.putWc : State :=
  (s.setChan c { s.chan c with wbase := insertByte s.dmac.bff (s.chan c).wbase b, wcur := insertByte s.dmac.bff (s.chan c).wbase b, bptr := 0x0000#16 }).toggleBff

variable {s c}

theorem exec_wrAddr (h : MayProgram s c) : exec (.wrAddr c b) s = .next (s.putAddr c b) :=
  unlessFault_eq_next.mpr ⟨checkNotArmed_eq_none h .addr b, rfl⟩

theorem exec_wrWc (h : MayProgram s c) : exec (.wrWc c b) s = .next (s.putWc c b) :=
  unlessFault_eq_next.mpr ⟨checkNotArmed_eq_none h .wc b, rfl⟩

theorem exec_wrMode (h : MayProgram s c) : exec (.wrMode c b) s = .next (s.setChan c { s.chan c with mode := b }) :=
  unlessFault_eq_next.mpr ⟨checkNotArmed_eq_none h .mode b, rfl⟩

end

/-- Replacing the registers of a channel by themselves changes nothing. -/
@[simp] theorem State.setChan_chan (s : State) (c : Chan) : s.setChan c (s.chan c) = s := by
  simp [State.setChan, State.chan]

/-- The words of a port access under the default port map are spaced by channel (R61, R63). -/
theorem toNat_default_access (wr : Bool) (c : Chan) (k : ChanPort) (d : Byte) :
    (accessWord wr (PortMap.default.offsetOf (.chan c k)) d).toNat =
      wr.toNat * 0x2000 + (PortMap.default.offsetOf (.chan 0 k)).toNat * 0x100 + 0x400 * c.val + d.toNat := by
  have hoff : (PortMap.default.offsetOf (.chan c k)).toNat = (PortMap.default.offsetOf (.chan 0 k)).toNat + 4 * c.val := by
    revert c; cases k <;> decide
  rw [toNat_accessWord, hoff]
  omega

/-- Settles O10. -/
theorem readAddressPort : Obligations.ReadAddressPort := by
  intro s c
  exact ⟨_, _, rfl, toNat_selectByte _ _, rfl, rfl, ⟨fun _ => rfl, rfl, rfl, rfl, rfl⟩,
    (toNat_default_access false c .addr 0).trans (Nat.zero_add _)⟩

/-- Settles O11. -/
theorem readWordCountPort : Obligations.ReadWordCountPort := by
  intro s c
  exact ⟨_, _, rfl, toNat_selectByte _ _, rfl, rfl, ⟨fun _ => rfl, rfl, rfl, rfl, rfl⟩,
    toNat_default_access false c .wc 0⟩

/-- Settles O12. -/
theorem writeAddressPort : Obligations.WriteAddressPort := by
  intro s c b h
  have hchan : (s.putAddr c b).chan c =
      { s.chan c with abase := insertByte s.dmac.bff (s.chan c).abase b, acur := insertByte s.dmac.bff (s.chan c).abase b, bptr := 0x0000#16 } :=
    State.chan_setChan_self ..
  refine ⟨_, exec_wrAddr b h, ?_, ?_, ?_, ?_, ?_, ?_, ?_, fun d hd => State.chan_setChan_of_ne s c _ hd, rfl,
    ⟨fun _ => rfl, rfl, rfl, rfl, rfl⟩, rfl⟩ <;> rw [hchan]
  exact toNat_insertByte _ _ _

/-- Settles O13. -/
theorem writeWordCountPort : Obligations.WriteWordCountPort := by
  intro s c b h
  have hchan : (s.putWc c b).chan c =
      { s.chan c with wbase := insertByte s.dmac.bff (s.chan c).wbase b, wcur := insertByte s.dmac.bff (s.chan c).wbase b, bptr := 0x0000#16 } :=
    State.chan_setChan_self ..
  refine ⟨_, exec_wrWc b h, ?_, ?_, ?_, ?_, ?_, ?_, ?_, fun d hd => State.chan_setChan_of_ne s c _ hd, rfl,
    ⟨fun _ => rfl, rfl, rfl, rfl, rfl⟩, rfl⟩ <;> rw [hchan]
  exact toNat_insertByte _ _ _

/-- Settles O14. -/
theorem readPagePort : Obligations.ReadPagePort := by
  intro s c
  exact ⟨_, rfl, rfl, rfl, ⟨fun _ => rfl, rfl, rfl, rfl, rfl⟩, toNat_default_access false c .page 0⟩

/-- Settles O15. -/
theorem writePagePort : Obligations.WritePagePort := by
  intro s c b
  refine ⟨_, rfl, State.chan_setChan_self .., fun d hd => State.chan_setChan_of_ne s c _ hd, rfl,
    ⟨fun _ => rfl, rfl, rfl, rfl, rfl⟩, rfl, ?_, ?_, toNat_default_access true c .page b⟩
  · rw [State.toNat_phys_zero, State.chan_setChan_self]
  · rintro rfl
    exact s.setChan_chan c

/-- Settles O16. -/
theorem writeModePort : Obligations.WriteModePort := by
  intro s c b h
  exact ⟨_, exec_wrMode b h, State.chan_setChan_self .., fun d hd => State.chan_setChan_of_ne s c _ hd, rfl,
    ⟨fun _ => rfl, rfl, rfl, rfl, rfl⟩, rfl⟩

/-! #### Global ports -/

/-- Settles O18. -/
theorem commandPort : Obligations.CommandPort := by
  intro s b
  exact ⟨⟨_, rfl, rfl, rfl, ⟨fun _ => rfl, rfl, rfl, rfl, rfl⟩⟩,
    ⟨_, rfl, rfl, ⟨fun _ => rfl, rfl, rfl, rfl, rfl⟩, rfl, _, rfl, rfl⟩⟩

/-- Settles O19. -/
theorem maskPort : Obligations.MaskPort := by
  intro s b
  exact ⟨⟨_, _, rfl, toNat_zext8 _, rfl, rfl, ⟨fun _ => rfl, rfl, rfl, rfl, rfl⟩⟩,
    ⟨_, rfl, toNat_lowNibble b, rfl, ⟨fun _ => rfl, rfl, rfl, rfl, rfl⟩, rfl⟩⟩

/-- Settles O20: a write that turns on no masked channel passes its check. -/
theorem requestPort : Obligations.RequestPort := by
  intro s b
  refine ⟨⟨_, _, rfl, toNat_zext8 _, rfl, rfl, ⟨fun _ => rfl, rfl, rfl, rfl, rfl⟩⟩, fun h => ?_⟩
  have hpass : s.cfg.strict = false ∨ ∀ c, ¬ TurnsOnMasked s b c := by
    refine h.imp_right fun hall c hon => ?_
    obtain ⟨hb, hreq, hmask⟩ := hon
    rcases hall c hb with hr | hm
    · exact absurd (hr.symm.trans hreq) (by decide)
    · exact absurd (hmask.symm.trans hm) (by decide)
  exact ⟨_, unlessFault_eq_next.mpr ⟨checkRequests_eq_none hpass, rfl⟩, toNat_lowNibble b, rfl,
    ⟨fun _ => rfl, rfl, rfl, rfl, rfl⟩, rfl⟩

/-- Settles O22. -/
theorem statusReadClears : Obligations.StatusReadClears := by
  intro s
  exact ⟨_, rfl, rfl, rfl, ⟨fun _ => rfl, rfl, rfl, rfl, rfl⟩, ⟨_, rfl, rfl⟩, by decide⟩

/-- Settles O23. -/
theorem clearFlipFlop : Obligations.ClearFlipFlop := by
  intro s b
  refine ⟨_, rfl, rfl, ⟨fun _ => rfl, rfl, rfl, rfl, rfl⟩, rfl, fun hbff => ?_, toNat_accessWord true _ b⟩
  rw [← hbff]
  rfl

/-- A request write that has run turns on nothing when it runs again (R103). -/
theorem checkRequests_setReq (s : State) (b : Byte) : (s.setReq (lowNibble b)).checkRequests b = none := by
  refine checkRequests_eq_none (.inr fun c hon => ?_)
  obtain ⟨hb, hreq, -⟩ := hon
  have hset : bitOf (lowNibble b) c = false := hreq
  rw [bitOf_lowNibble] at hset
  exact absurd (hb.symm.trans hset) (by decide)

/-- Settles O24: the second write replaces a register by the value it has, and its check passes as the first did. -/
theorem immediateWritesAreIdempotent : Obligations.ImmediateWritesAreIdempotent := by
  rintro i s t ⟨b, rfl | rfl | rfl | ⟨c, rfl | rfl⟩⟩ h <;> cases effect_of_exec h
  case wrMask => rfl
  case wrReq => exact unlessFault_eq_next.mpr ⟨checkRequests_setReq s b, rfl⟩
  case wrCmd => rfl
  case wrPage =>
    show Host.Outcome.next _ = _
    simp
  case wrMode hcheck =>
    refine unlessFault_eq_next.mpr ⟨hcheck, ?_⟩
    simp

/-! #### The sequences of R76 -/

/-- A list of operations at the head of the queue runs one operation after the other. -/
theorem runs_inputsOf_cons {s u t : State} {i : Instr} {is : List Instr} {rest : List Input} {k : Nat}
    (hpm : s.cfg.portMap.oneToOne = true) (hin : s.inputs = inputsOf s.cfg.portMap (i :: is) ++ rest)
    (hexec : exec i { s with inputs := inputsOf s.cfg.portMap is ++ rest } = .next u) (hrun : Runs k u t) :
    Runs (k + 1) s t :=
  (runs_succ k s t).mpr ⟨u, (step_encode hpm hin).trans hexec, hrun⟩

/-- Replacing a channel and setting `BFF` commute. -/
theorem State.setBff_setChan (s : State) (v : Bool) (c : Chan) (ch : Channel) :
    (s.setBff v).setChan c ch = (s.setChan c ch).setBff v := rfl

theorem State.setBff_setBff (s : State) (v v' : Bool) : (s.setBff v).setBff v' = s.setBff v' := rfl

/-- The two writes of `LD_ADDR` leave the whole value in base and current register (R71, R76). -/
theorem State.putAddr_putAddr (s : State) (c : Chan) (w : Word) :
    ((s.setBff false).putAddr c (w.extractLsb' 0 8)).putAddr c (w.extractLsb' 8 8) =
      (s.setChan c { s.chan c with abase := w, acur := w, bptr := 0x0000#16 }).setBff false := by
  simp [putAddr, toggleBff, setBff_setChan, setBff_setBff, insertByte_insertByte]

/-- The two writes of `LD_WC` leave the whole value in base and current register (R71, R76). -/
theorem State.putWc_putWc (s : State) (c : Chan) (w : Word) :
    ((s.setBff false).putWc c (w.extractLsb' 0 8)).putWc c (w.extractLsb' 8 8) =
      (s.setChan c { s.chan c with wbase := w, wcur := w, bptr := 0x0000#16 }).setBff false := by
  simp [putWc, toggleBff, setBff_setChan, setBff_setBff, insertByte_insertByte]

/-- Settles O25: the three words run one after the other, and the two writes make up the value. -/
theorem loadSequences : Obligations.LoadSequences := by
  intro s c w rest hpm h
  constructor <;> intro hin
  · exact ⟨(({ s with inputs := rest } : State).setChan c { s.chan c with abase := w, acur := w, bptr := 0x0000#16 }).setBff false,
      runs_inputsOf_cons hpm hin rfl (runs_inputsOf_cons hpm rfl (exec_wrAddr _ h)
        (runs_inputsOf_cons hpm rfl (exec_wrAddr _ h) ((runs_zero _ _).mpr (State.putAddr_putAddr { s with inputs := rest } c w)))),
      State.chan_setChan_self .., fun d hd => State.chan_setChan_of_ne _ c _ hd, rfl,
      ⟨fun _ => rfl, rfl, rfl, rfl, rfl⟩, rfl⟩
  · exact ⟨(({ s with inputs := rest } : State).setChan c { s.chan c with wbase := w, wcur := w, bptr := 0x0000#16 }).setBff false,
      runs_inputsOf_cons hpm hin rfl (runs_inputsOf_cons hpm rfl (exec_wrWc _ h)
        (runs_inputsOf_cons hpm rfl (exec_wrWc _ h) ((runs_zero _ _).mpr (State.putWc_putWc { s with inputs := rest } c w)))),
      State.chan_setChan_self .., fun d hd => State.chan_setChan_of_ne _ c _ hd, rfl,
      ⟨fun _ => rfl, rfl, rfl, rfl, rfl⟩, rfl⟩

/-- The two halves of a register make it up (R71). -/
theorem selectByte_halves (w : Word) : (selectByte true w).toNat * 256 + (selectByte false w).toNat = w.toNat := by
  rw [toNat_selectByte, toNat_selectByte]
  simp only [if_true, Bool.false_eq_true, if_false]
  omega

/-- Settles O26: the three words run one after the other, and the two reads are the halves of the register. -/
theorem getSequences : Obligations.GetSequences := by
  intro s c rest hpm
  constructor <;> intro hin
  · exact ⟨_, _, _, runs_inputsOf_cons hpm hin rfl (runs_inputsOf_cons hpm rfl rfl
      (runs_inputsOf_cons hpm rfl rfl ((runs_zero _ _).mpr rfl))), List.append_assoc .., selectByte_halves _, rfl,
      ⟨fun _ => rfl, rfl, rfl, rfl, rfl⟩⟩
  · exact ⟨_, _, _, runs_inputsOf_cons hpm hin rfl (runs_inputsOf_cons hpm rfl rfl
      (runs_inputsOf_cons hpm rfl rfl ((runs_zero _ _).mpr rfl))), List.append_assoc .., selectByte_halves _, rfl,
      ⟨fun _ => rfl, rfl, rfl, rfl, rfl⟩⟩

/-! #### Ticks and the CPU's accesses -/

/-- A CPU store at the head of the queue replaces its byte (R52). -/
theorem step_cpuStore {s : State} {a : PhysAddr} {v : Byte} {rest : List Input} (h : s.inputs = .cpuStore a v :: rest) :
    step s = .next (({ s with inputs := rest } : State).setByte a v) := by
  simp [step, runNext, runInput, h]

/-- A CPU load at the head of the queue returns its byte (R52). -/
theorem step_cpuLoad {s : State} {a : PhysAddr} {rest : List Input} (h : s.inputs = .cpuLoad a :: rest) :
    step s = .next (({ s with inputs := rest } : State).emit (.cpuLoad a (s.byteAt a))) := by
  simp only [step, runNext, h]
  rfl

/-- Settles O8: the store leaves every register, so the tick after it is a read transfer of the stored byte (O33). -/
theorem cpuStoreSeenByNextTick : Obligations.CpuStoreSeenByNextTick := by
  intro s c q v rest hm hpm hs hread hin
  have hbyte (a : PhysAddr) (ha : a = s.phys c 0#16) :
      (({ s with inputs := rest } : State).setByte (s.phys c 0#16) v).byteAt a = v := by
    rw [ha]
    exact State.byteAt_setByte_self (s := { s with inputs := rest }) hm _ v
  obtain ⟨t, ht, htrace, -, hmem, -, hinputs, -⟩ :=
    readTransferTick (({ s with inputs := rest } : State).setByte (s.phys c 0#16) v) q c hs hread
  have htick : Runs 1 (({ s with inputs := .op (encode s.cfg.portMap (.tick q)) :: rest } : State).setByte (s.phys c 0#16) v) t :=
    (runs_succ 0 _ t).mpr ⟨t, (step_tick rfl).trans ht, (runs_zero t t).mpr rfl⟩
  rw [hbyte] at htrace
  · exact ⟨t, (runs_succ 1 s t).mpr ⟨_, step_cpuStore hin, htick⟩, hinputs, (hmem _).trans (hbyte _ rfl), htrace⟩
  · rfl

/-- A step that neither is a CPU store to an address nor signals a store to it leaves the byte there (R45). -/
theorem step_byteAt {s t : State} {a : PhysAddr} {l : List Signal} (h : step s = .next t) (hl : t.trace = s.trace ++ l)
    (hcpu : ∀ w, s.inputs.head? ≠ some (.cpuStore a w)) (hdma : ∀ w, Signal.memWrite a w ∉ l) :
    t.byteAt a = s.byteAt a := by
  rcases step_cases h with ⟨-, rfl⟩ | ⟨w, rest, i, hi, -, he⟩ | ⟨k, v, rest, hi, rfl⟩ | ⟨k, rest, -, rfl⟩
  · rfl
  · exact exec_byteAt (s := { s with inputs := rest }) he hl hdma
  · refine State.byteAt_setByte_of_ne _ v fun e => hcpu v ?_
    rw [hi, e]
    rfl
  · rfl

/-- A step takes its input off the queue. -/
theorem step_inputs {s t : State} {x : Input} {rest : List Input} (h : step s = .next t) (hin : s.inputs = x :: rest) :
    t.inputs = rest := by
  rcases step_cases h with ⟨hi, -⟩ | ⟨w, rest', i, hi, -, he⟩ | ⟨k, v, rest', hi, rfl⟩ | ⟨k, rest', hi, rfl⟩ <;>
    cases hin.symm.trans hi
  · exact (exec_cfg_inputs he).2
  · rfl
  · rfl

/-- Over a run of inputs that store nothing to an address, its byte stays and the inputs are taken off the queue (R45). -/
theorem runs_byteAt {mid after : List Input} {t u : State} {a : PhysAddr} (hin : t.inputs = mid ++ after)
    (hrun : Runs mid.length t u) (hcpu : ∀ w, Input.cpuStore a w ∉ mid)
    (hdma : ∀ w, Signal.memWrite a w ∉ u.trace.drop t.trace.length) : u.byteAt a = t.byteAt a ∧ u.inputs = after := by
  induction mid generalizing t with
  | nil =>
    obtain rfl := (runs_zero t u).mp hrun
    exact ⟨rfl, hin⟩
  | cons x mid ih =>
    obtain ⟨v, hv, hu⟩ := (runs_succ _ t u).mp hrun
    obtain ⟨l, hl⟩ := step_trace hv
    obtain ⟨m, hm⟩ := runs_trace hu
    have hdrop : u.trace.drop t.trace.length = l ++ m := by simp [hm, hl]
    have hdrop' : u.trace.drop v.trace.length = m := by simp [hm]
    rw [hdrop] at hdma
    obtain ⟨hbyte, hinputs⟩ := ih (step_inputs hv hin) hu (fun w hw => hcpu w (List.mem_cons_of_mem _ hw))
      fun w hw => hdma w (List.mem_append_right _ (hdrop' ▸ hw))
    refine ⟨hbyte.trans (step_byteAt hv hl (fun w hw => hcpu w ?_) fun w hw => hdma w (List.mem_append_left _ hw)), hinputs⟩
    rw [hin] at hw
    cases hw
    exact List.mem_cons_self

/-- Settles O9: the byte is the one the card supplies next, and the inputs between leave it where it is (`runs_byteAt`). -/
theorem cpuLoadSeesEngineStore : Obligations.CpuLoadSeesEngineStore := by
  intro s c q mid rest hm hs hwrite hin
  obtain ⟨t, v, ht, hsupply, -, htrace, -, hbyte, -, -, hinputs⟩ :=
    writeTransferTick { s with inputs := mid ++ .cpuLoad (s.phys c 0#16) :: rest } q c hm hs hwrite
  refine ⟨t, v, (step_tick hin).trans ht, fun w more hw => (hsupply w more hw).1, htrace, fun u hu hcpu hdma => ?_⟩
  obtain ⟨hbyte', hinputs'⟩ := runs_byteAt hinputs hu hcpu hdma
  have hv : u.byteAt (s.phys c 0#16) = v := hbyte'.trans hbyte
  exact ⟨_, step_cpuLoad hinputs', rfl, hv ▸ rfl⟩

end Sys2Proof.Machine
end

section
/-! The whole machine: which operations write each register (10_state.md R36), the invariant, and reset (R33, R210). -/

namespace Sys2Proof.Machine

open Sys2Proof

/-! #### The writers of the channel registers -/

/-- What an operation other than reset makes of the registers of channel `c`. -/
inductive ChanEffect (c : Chan) (s : State) : Instr → Channel → Prop where
  | same (i : Instr) : ChanEffect c s i (s.chan c)
  | wrAddr (b : Byte) (w : Word) :
      ChanEffect c s (.wrAddr c b) { s.chan c with abase := w, acur := w, bptr := 0x0000#16 }
  | wrWc (b : Byte) (w : Word) : ChanEffect c s (.wrWc c b) { s.chan c with wbase := w, wcur := w, bptr := 0x0000#16 }
  | wrPage (b : Byte) : ChanEffect c s (.wrPage c b) { s.chan c with page := b }
  | wrMode (b : Byte) : ChanEffect c s (.wrMode c b) { s.chan c with mode := b }
  | service (q : Nibble) : Services s q c → ChanEffect c s (.tick q) (s.chan c).afterUnit

/-- A replaced channel has the replacement's effect, every other channel stays. -/
theorem ChanEffect.setChan {c d : Chan} {s : State} {i : Instr} {ch : Channel} (h : c = d → ChanEffect c s i ch) :
    ChanEffect c s i ((s.setChan d ch).chan c) := by
  by_cases e : c = d
  · subst e; rw [State.chan_setChan_self]; exact h rfl
  · rw [State.chan_setChan_of_ne _ _ _ e]; exact .same i

/-- Every operation but reset has one of these effects on a channel. -/
theorem chanEffect_of_exec (c : Chan) {i : Instr} {s t : State} (h : exec i s = .next t) (hr : i ≠ .reset) :
    ChanEffect c s i (t.chan c) := by
  cases effect_of_exec h with
  | reset => exact absurd rfl hr
  | wrAddr d b _ => exact .setChan fun e => by subst e; exact .wrAddr b _
  | wrWc d b _ => exact .setChan fun e => by subst e; exact .wrWc b _
  | wrPage d b => exact .setChan fun e => by subst e; exact .wrPage b
  | wrMode d b _ => exact .setChan fun e => by subst e; exact .wrMode b
  | service q d hs =>
    show ChanEffect c s (.tick q) ((s.afterTick q d s.inputs).chan c)
    by_cases e : c = d
    · subst e; rw [State.afterTick_chan_self]; exact .service q hs
    · rw [State.afterTick_chan_of_ne _ _ _ _ e]; exact .same _
  | _ => exact .same _

namespace ChanEffect

variable {c : Chan} {s : State} {i : Instr} {ch : Channel}

theorem mode_writer (h : ChanEffect c s i ch) (hne : ch.mode ≠ (s.chan c).mode) : ∃ b, i = .wrMode c b := by
  cases h with
  | wrMode b => exact ⟨b, rfl⟩
  | service q hs => exact absurd (Channel.afterUnit_mode _) hne
  | _ => exact absurd rfl hne

theorem page_writer (h : ChanEffect c s i ch) (hne : ch.page ≠ (s.chan c).page) : ∃ b, i = .wrPage c b := by
  cases h with
  | wrPage b => exact ⟨b, rfl⟩
  | service q hs => exact absurd (Channel.afterUnit_page _) hne
  | _ => exact absurd rfl hne

theorem abase_writer (h : ChanEffect c s i ch) (hne : ch.abase ≠ (s.chan c).abase) : ∃ b, i = .wrAddr c b := by
  cases h with
  | wrAddr b w => exact ⟨b, rfl⟩
  | service q hs => exact absurd (Channel.afterUnit_abase _) hne
  | _ => exact absurd rfl hne

theorem wbase_writer (h : ChanEffect c s i ch) (hne : ch.wbase ≠ (s.chan c).wbase) : ∃ b, i = .wrWc c b := by
  cases h with
  | wrWc b w => exact ⟨b, rfl⟩
  | service q hs => exact absurd (Channel.afterUnit_wbase _) hne
  | _ => exact absurd rfl hne

theorem bptr_writer (h : ChanEffect c s i ch) (hne : ch.bptr ≠ (s.chan c).bptr) :
    (∃ b, i = .wrAddr c b ∨ i = .wrWc c b) ∨ ∃ q, i = .tick q ∧ Services s q c := by
  cases h with
  | wrAddr b w => exact .inl ⟨b, .inl rfl⟩
  | wrWc b w => exact .inl ⟨b, .inr rfl⟩
  | service q hs => exact .inr ⟨q, rfl, hs⟩
  | _ => exact absurd rfl hne

end ChanEffect

/-! #### The writers of the controller registers -/

section

variable {i : Instr} {s t : State}

theorem cmd_writer (h : exec i s = .next t) (hr : i ≠ .reset) (hne : t.dmac.cmd ≠ s.dmac.cmd) : ∃ b, i = .wrCmd b := by
  cases effect_of_exec h with
  | wrCmd b => exact ⟨b, rfl⟩
  | service q d hs => exact absurd (s.afterTick_cmd q d s.inputs) hne
  | reset => exact absurd rfl hr
  | _ => exact absurd rfl hne

theorem req_writer (c : Chan) (h : exec i s = .next t) (hr : i ≠ .reset)
    (hne : t.dmac.req.getLsbD c.val ≠ s.dmac.req.getLsbD c.val) :
    (∃ b, i = .wrReq b) ∨ ∃ q, i = .tick q ∧ Services s q c ∧ (s.chan c).wcur = 0x0000#16 := by
  cases effect_of_exec h with
  | wrReq b _ => exact .inl ⟨b, rfl⟩
  | service q d hs =>
    by_cases hdone : c = d ∧ (s.chan d).wcur = 0x0000#16
    · obtain ⟨rfl, hz⟩ := hdone
      exact .inr ⟨q, rfl, hs, hz⟩
    · refine absurd (Bool.eq_iff_iff.mpr ?_) hne
      exact (s.reqBit_afterTick q d s.inputs c).trans (and_iff_left hdone)
  | reset => exact absurd rfl hr
  | _ => exact absurd rfl hne

theorem mask_writer (c : Chan) (h : exec i s = .next t) (hr : i ≠ .reset)
    (hne : t.dmac.mask.getLsbD c.val ≠ s.dmac.mask.getLsbD c.val) :
    (∃ b, i = .wrMask b) ∨
    ∃ q, i = .tick q ∧ Services s q c ∧ (s.chan c).wcur = 0x0000#16 ∧ autoBit (s.chan c) = false := by
  cases effect_of_exec h with
  | wrMask b => exact .inl ⟨b, rfl⟩
  | service q d hs =>
    by_cases hdone : c = d ∧ (s.chan d).wcur = 0x0000#16 ∧ autoBit (s.chan d) = false
    · obtain ⟨rfl, hz, ha⟩ := hdone
      exact .inr ⟨q, rfl, hs, hz, ha⟩
    · refine absurd (Bool.eq_iff_iff.mpr ?_) hne
      exact (s.maskBit_afterTick q d s.inputs c).trans (or_iff_left hdone)
  | reset => exact absurd rfl hr
  | _ => exact absurd rfl hne

theorem status_writer (h : exec i s = .next t) (hr : i ≠ .reset) (hne : t.dmac.status ≠ s.dmac.status) :
    i = .rdStatus ∨ ∃ q, i = .tick q := by
  cases effect_of_exec h with
  | rdStatus => exact .inl rfl
  | service q d hs => exact .inr ⟨q, rfl⟩
  | reset => exact absurd rfl hr
  | _ => exact absurd rfl hne

theorem bff_writer (h : exec i s = .next t) (hr : i ≠ .reset) (hne : t.dmac.bff ≠ s.dmac.bff) :
    (∃ c, i = .rdAddr c ∨ i = .rdWc c) ∨ (∃ c b, i = .wrAddr c b ∨ i = .wrWc c b) ∨ ∃ b, i = .wrClrff b := by
  cases effect_of_exec h with
  | rdAddr c => exact .inl ⟨c, .inl rfl⟩
  | rdWc c => exact .inl ⟨c, .inr rfl⟩
  | wrAddr c b _ => exact .inr (.inl ⟨c, b, .inl rfl⟩)
  | wrWc c b _ => exact .inr (.inl ⟨c, b, .inr rfl⟩)
  | wrClrff b => exact .inr (.inr ⟨b, rfl⟩)
  | service q d hs => exact absurd (s.afterTick_bff q d s.inputs) hne
  | reset => exact absurd rfl hr
  | _ => exact absurd rfl hne

theorem last_writer (h : exec i s = .next t) (hr : i ≠ .reset) (hne : t.dmac.last ≠ s.dmac.last) :
    ∃ q, i = .tick q ∧ Services s q t.dmac.last := by
  cases effect_of_exec h with
  | service q d hs => exact ⟨q, rfl, hs⟩
  | reset => exact absurd rfl hr
  | _ => exact absurd rfl hne

end

/-- Settles O43, register by register. -/
theorem registerWriters : Obligations.RegisterWriters := by
  intro i s t h hr
  have hchan (c : Chan) := chanEffect_of_exec c h hr
  exact ⟨fun c => (hchan c).mode_writer, fun c => (hchan c).page_writer, fun c => (hchan c).abase_writer,
    fun c => (hchan c).wbase_writer, fun c => (hchan c).bptr_writer, cmd_writer h hr, fun c => req_writer c h hr,
    fun c => mask_writer c h hr, status_writer h hr, bff_writer h hr, last_writer h hr⟩

/-! #### The invariant -/

/-- Settles O44: no operation and no CPU access touches the configuration. -/
theorem configurationNeverChanges : Obligations.ConfigurationNeverChanges := by
  intro s t h
  rcases step_cases h with ⟨-, rfl⟩ | ⟨_, rest, _, -, -, he⟩ | ⟨_, _, _, -, rfl⟩ | ⟨_, _, -, rfl⟩
  · rfl
  · exact (exec_cfg_inputs (s := { s with inputs := rest }) he).1
  · rfl
  · rfl

/-- A tick keeps the canonical form of memory (R46). -/
theorem State.wf_afterTick {s : State} (hm : s.mem.wf = true) (q : Nibble) (c : Chan) (rest : List Input) :
    (s.afterTick q c rest).mem.wf = true := by
  rw [afterTick_mem]
  split
  · exact wf_setByte hm _ _
  · exact hm

/-- Every operation keeps the canonical form of memory (R46). -/
theorem exec_wf {i : Instr} {s t : State} (h : exec i s = .next t) (hm : s.mem.wf = true) : t.mem.wf = true := by
  cases effect_of_exec h with
  | service q c hs => exact State.wf_afterTick hm q c s.inputs
  | _ => exact hm

/-- A terminal-count flag that stands after an operation stood before it, or the operation has signalled the completion
(R138, R139, R141). -/
theorem exec_flagged {i : Instr} {s t : State} {c : Chan} (h : exec i s = .next t)
    (hf : t.dmac.status.getLsbD c.val = true) :
    s.dmac.status.getLsbD c.val = true ∨ ∃ p, Signal.complete c p ∈ t.trace := by
  cases effect_of_exec h with
  | service q d hs =>
    rcases (s.tcFlag_afterTick q d s.inputs c).mp hf with hold | ⟨rfl, hz, -⟩
    · exact .inl hold
    · refine .inr ⟨(s.chan c).afterUnit.bptr, ?_⟩
      show _ ∈ (s.afterTick q c s.inputs).trace
      rw [State.afterTick_trace]
      simp [completion, hz]
  | rdStatus | reset =>
    have hzero : (0x00#8).getLsbD c.val = false := BitVec.getLsbD_zero
    exact absurd (hf.symm.trans hzero) (by decide)
  | _ => exact .inl hf

/-- Every operation keeps the invariant. -/
theorem exec_inv {i : Instr} {s t : State} (h : exec i s = .next t) (hinv : MachineInv s) : MachineInv t where
  memory := exec_wf h hinv.memory
  portMap := by rw [(exec_cfg_inputs h).1]; exact hinv.portMap
  flagged c hf := by
    rcases exec_flagged h hf with hold | hnew
    · obtain ⟨p, hp⟩ := hinv.flagged c hold
      obtain ⟨l, hl⟩ := exec_trace h
      exact ⟨p, hl ▸ List.mem_append_left l hp⟩
    · exact hnew

/-- Settles O55: an operation keeps the invariant (`exec_inv`), and a CPU access changes one byte or puts out one signal. -/
theorem invariantKeptByStep : Obligations.InvariantKeptByStep := by
  intro s t hinv h
  rcases step_cases h with ⟨-, rfl⟩ | ⟨_, rest, _, -, -, he⟩ | ⟨a, v, rest, -, rfl⟩ | ⟨_, _, -, rfl⟩
  · exact hinv
  · exact exec_inv (s := { s with inputs := rest }) he ⟨hinv.memory, hinv.portMap, hinv.flagged⟩
  · exact ⟨State.wf_setByte (s := { s with inputs := rest }) hinv.memory a v, hinv.portMap, hinv.flagged⟩
  · refine ⟨hinv.memory, hinv.portMap, fun c hf => ?_⟩
    obtain ⟨p, hp⟩ := hinv.flagged c hf
    exact ⟨p, List.mem_append_left _ hp⟩

/-- Settles O56: nothing is listed in memory and no flag stands. -/
theorem invariantAtReset : Obligations.InvariantAtReset := by
  refine ⟨rfl, PortMap.default_oneToOne, fun c hf => ?_⟩
  have hzero : State.reset.dmac.status.getLsbD c.val = false := BitVec.getLsbD_zero
  exact absurd (hf.symm.trans hzero) (by decide)

/-! #### Reset and the translator -/

/-- Settles O57. -/
theorem resetOperation : Obligations.ResetOperation := by
  intro s
  have hchan : ∀ c : Chan, resetRegisters.chans[c] = Channel.reset := by decide
  have hmasked : ∀ c : Chan, resetRegisters.mask.getLsbD c.val = true := by decide
  refine ⟨_, rfl, rfl, rfl, rfl, rfl, rfl, rfl, fun c => ?_, ⟨fun _ => rfl, rfl, rfl, rfl, rfl⟩, rfl⟩
  rw [show ({ s with dmac := resetRegisters } : State).chan c = Channel.reset from hchan c]
  exact ⟨rfl, rfl, rfl, rfl, rfl, rfl, rfl, (State.phase_eq_idle _ c).mpr (hmasked c)⟩

/-- Settles O58. -/
theorem stateAfterReset : Obligations.StateAfterReset := by
  have hfixed : ({ State.reset with dmac := resetRegisters } : State) = State.reset := by decide
  exact ⟨rfl, rfl, rfl, rfl, rfl, rfl, congrArg _ hfixed, rfl, rfl, rfl, rfl, by decide, rfl, by decide⟩

/-- Settles O27. -/
theorem physIsPageAboveAddress : Obligations.PhysIsPageAboveAddress := by
  intro s c off
  have hlt := ((s.chan c).addressAhead off).isLt
  unfold State.phys Channel.phys
  rw [BitVec.toNat_append, ← Nat.shiftLeft_add_eq_or_of_lt hlt, Nat.shiftLeft_eq, Channel.toNat_addressAhead]

end Sys2Proof.Machine
end

section
/-! Runs that service one channel (43_transfer_engine.md R142, R143; 20_memory.md R47): what `n` units leave of the channel
(`UnitsDone`) and what the terminal count makes of it (`Completed`), for back-to-back ticks and for any run. -/

namespace Sys2Proof.Machine

open Sys2Proof

/-! #### Units of one channel -/

/-- The address some units on depends on the current address and the direction alone (R143). -/
theorem addressAfter_congr {x y : Channel} (ha : x.acur = y.acur) (hm : x.mode = y.mode) (n : Nat) :
    addressAfter x n = addressAfter y n := by
  unfold addressAfter
  rw [ha, hm]

/-- One unit on from `n` units on is `n + 1` units on (R135, R143). -/
theorem addressAfter_succ {x y : Channel} {n : Nat} (ha : y.acur.toNat = addressAfter x n) (hm : y.mode = x.mode)
    (hn : n < 2 ^ 16) : addressAfter y 1 = addressAfter x (n + 1) := by
  have := x.acur.isLt
  unfold addressAfter at *
  rw [ha, hm]
  split <;> omega

/-- A count above some number is not zero. -/
theorem wcur_ne_zero {w : Word} {n : Nat} (h : n < w.toNat) : w ≠ 0x0000#16 := by
  rintro rfl
  exact absurd h (Nat.not_lt_zero n)

/-- A unit that is no terminal count takes one from the count (R136). -/
theorem State.toNat_wcur_afterTick {s : State} {c : Chan} (hz : (s.chan c).wcur ≠ 0x0000#16) (q : Nibble)
    (rest : List Input) : ((s.afterTick q c rest).chan c).wcur.toNat = (s.chan c).wcur.toNat - 1 := by
  rw [afterTick_chan_self, Channel.afterUnit_counted (.inl hz), Channel.toNat_counted_wcur hz]

/-- From `s` to `t`, channel `c` has done `n` units short of its terminal count (R143). -/
structure UnitsDone (c : Chan) (n : Nat) (s t : State) : Prop where
  wcur  : (t.chan c).wcur.toNat = (s.chan c).wcur.toNat - n
  acur  : (t.chan c).acur.toNat = addressAfter (s.chan c) n
  abase : (t.chan c).abase = (s.chan c).abase
  wbase : (t.chan c).wbase = (s.chan c).wbase
  mode  : (t.chan c).mode = (s.chan c).mode
  done  : completions c t.trace = completions c s.trace

namespace UnitsDone

variable {c : Chan} {n : Nat} {s t u : State}

theorem zero (c : Chan) (s : State) : UnitsDone c 0 s s :=
  ⟨rfl, (addressAfter_zero _).symm, rfl, rfl, rfl, rfl⟩

/-- What leaves the transfer of the channel alone may come before its units. -/
theorem after_same (hsame : SameTransfer c s u) (h : UnitsDone c n u t) : UnitsDone c n s t where
  wcur  := by rw [h.wcur, hsame.wcur]
  acur  := by rw [h.acur, addressAfter_congr hsame.acur hsame.mode]
  abase := h.abase.trans hsame.abase
  wbase := h.wbase.trans hsame.wbase
  mode  := h.mode.trans hsame.mode
  done  := h.done.trans hsame.done

/-- A unit that is no terminal count, then `n` more. -/
theorem after_tick {q : Nibble} {rest : List Input} (hz : (s.chan c).wcur ≠ 0x0000#16) (hn : n < 2 ^ 16)
    (h : UnitsDone c n (s.afterTick q c rest) t) : UnitsDone c (n + 1) s t := by
  have hchan : (s.afterTick q c rest).chan c = (s.chan c).counted := by
    rw [State.afterTick_chan_self, Channel.afterUnit_counted (.inl hz)]
  obtain ⟨hwcur, hacur, habase, hwbase, hmode, hdone⟩ := h
  rw [hchan] at hwcur hacur habase hwbase hmode
  refine ⟨?_, ?_, habase, hwbase, hmode, ?_⟩
  · rw [hwcur, Channel.toNat_counted_wcur hz]
    omega
  · rw [hacur, Channel.addressAfter_counted _ hn]
  · rw [hdone, State.completions_afterTick, if_neg fun h => hz h.1, Nat.add_zero]

end UnitsDone

/-- From `s` to `t`, channel `c` has done all the units of its count and one more (R138, R139, R142). -/
structure Completed (c : Chan) (s t : State) : Prop where
  done  : completions c t.trace = completions c s.trace + 1
  abase : (t.chan c).abase = (s.chan c).abase
  wbase : (t.chan c).wbase = (s.chan c).wbase
  plain : autoBit (s.chan c) = false → (t.chan c).wcur = 0xFFFF#16 ∧
    (t.chan c).acur.toNat = addressAfter (s.chan c) ((s.chan c).wcur.toNat + 1)
  auto  : autoBit (s.chan c) = true → (t.chan c).wcur = (s.chan c).wbase ∧ (t.chan c).acur = (s.chan c).abase

namespace Completed

variable {c : Chan} {s t u : State}

/-- What leaves the transfer of the channel alone may come after the terminal count. -/
theorem then_same (h : Completed c s u) (hsame : SameTransfer c u t) : Completed c s t where
  done  := hsame.done.trans h.done
  abase := hsame.abase.trans h.abase
  wbase := hsame.wbase.trans h.wbase
  plain ha := ⟨hsame.wcur.trans (h.plain ha).1, hsame.acur ▸ (h.plain ha).2⟩
  auto ha  := ⟨hsame.wcur.trans (h.auto ha).1, hsame.acur.trans (h.auto ha).2⟩

end Completed

/-- When all units of the count are done, the count is zero. -/
theorem UnitsDone.wcur_eq_zero {c : Chan} {s u : State} (h : UnitsDone c (s.chan c).wcur.toNat s u) :
    (u.chan c).wcur = 0x0000#16 :=
  BitVec.eq_of_toNat_eq (by rw [h.wcur, Nat.sub_self]; rfl)

/-- The unit after those of the count is the terminal count (R137). -/
theorem UnitsDone.then_terminal {c : Chan} {s u : State} (h : UnitsDone c (s.chan c).wcur.toNat s u) (q : Nibble)
    (rest : List Input) : Completed c s (u.afterTick q c rest) where
  done  := by rw [State.completions_afterTick, if_pos ⟨h.wcur_eq_zero, rfl⟩, h.done]
  abase := by rw [State.afterTick_chan_self, Channel.afterUnit_abase, h.abase]
  wbase := by rw [State.afterTick_chan_self, Channel.afterUnit_wbase, h.wbase]
  plain ha := by
    have ha' : autoinitializes (u.chan c).mode = false := h.mode ▸ ha
    rw [State.afterTick_chan_self, Channel.afterUnit_counted (.inr ha')]
    refine ⟨by simp [Channel.counted, h.wcur_eq_zero], ?_⟩
    rw [(u.chan c).toNat_counted.2, addressAfter_succ h.acur h.mode (s.chan c).wcur.isLt]
  auto ha := by
    have ha' : autoinitializes (u.chan c).mode = true := h.mode ▸ ha
    rw [State.afterTick_chan_self, Channel.afterUnit_reloaded h.wcur_eq_zero ha']
    exact ⟨h.wbase, h.abase⟩

/-! #### Back-to-back ticks -/

/-- A tick with lines `q` services channel `c`, which alone is eligible. -/
structure Ready (s : State) (q : Nibble) (c : Chan) : Prop where
  enabled  : s.dmac.cmd.getLsbD 2 = true
  only     : OnlyEligible s q c
  admitted : Admitted s c

namespace Ready

variable {s : State} {q : Nibble} {c : Chan} {pm : PortMap} {rest : List Input}

/-- The first of a run of ticks is one unit of the channel. -/
theorem step_tick {n : Nat} (h : Ready s q c) (hin : s.inputs = ticks pm (List.replicate (n + 1) q) ++ rest) :
    step s = .next (s.afterTick q c (ticks pm (List.replicate n q) ++ rest)) :=
  step_afterTick h.enabled h.only h.admitted hin

/-- Short of a terminal count the next tick services the channel again. -/
theorem afterTick (h : Ready s q c) (hz : (s.chan c).wcur ≠ 0x0000#16) : Ready (s.afterTick q c rest) q c := by
  obtain ⟨-, -, -, honly, hadm⟩ := State.afterTick_continues (rest := rest) hz h.only h.admitted
  exact ⟨(State.afterTick_cmd ..).symm ▸ h.enabled, honly, hadm⟩

end Ready

/-- The frame of a run that services `c` short of its terminal count: its page, the other channels, `MASK` and `REQ`. -/
structure SameBeside (c : Chan) (s t : State) : Prop where
  page   : (t.chan c).page = (s.chan c).page
  others : SameOtherChannels c s t
  mask   : t.dmac.mask = s.dmac.mask
  req    : t.dmac.req = s.dmac.req

/-- `n` ticks, `n` at most the count, do `n` units and leave the channel ready for the next (R143). -/
theorem runs_units {c : Chan} {q : Nibble} {pm : PortMap} {rest : List Input} {n : Nat} {s : State} (hr : Ready s q c)
    (hin : s.inputs = ticks pm (List.replicate n q) ++ rest) (hn : n ≤ (s.chan c).wcur.toNat) :
    ∃ t, Runs n s t ∧ UnitsDone c n s t ∧ SameBeside c s t ∧ Ready t q c ∧ t.inputs = rest := by
  induction n generalizing s with
  | zero => exact ⟨s, (runs_zero s s).mpr rfl, .zero c s, ⟨rfl, fun _ _ => rfl, rfl, rfl⟩, hr, hin⟩
  | succ n ih =>
    have hz := wcur_ne_zero hn
    have hn16 : n < 2 ^ 16 := Nat.lt_trans hn (s.chan c).wcur.isLt
    have hstep := hr.step_tick hin
    generalize hu : ticks pm (List.replicate n q) ++ rest = inputs at hstep
    have hcount : n ≤ ((s.afterTick q c inputs).chan c).wcur.toNat := by
      rw [State.toNat_wcur_afterTick hz]
      omega
    obtain ⟨t, hrun, hunits, hbeside, hready, hinputs⟩ :=
      ih (hr.afterTick hz) ((State.afterTick_inputs ..).trans hu.symm) hcount
    refine ⟨t, (runs_succ n s t).mpr ⟨_, hstep, hrun⟩, hunits.after_tick hz hn16, ?_, hready, hinputs⟩
    obtain ⟨hpage, hothers, hmask, hreq⟩ := hbeside
    refine ⟨?_, fun d hd => ?_, ?_, ?_⟩
    · rw [hpage, State.afterTick_chan_self, Channel.afterUnit_page]
    · rw [hothers d hd, State.afterTick_chan_of_ne _ _ _ _ hd]
    · rw [hmask, State.afterTick_mask_of_ne_zero _ _ _ _ hz]
    · rw [hreq, State.afterTick_req_of_ne_zero _ _ _ _ hz]

/-- Settles O50 (`runs_units`). -/
theorem progressLaw : Obligations.ProgressLaw := by
  intro n s c q rest _ hen honly hadm hin hn
  obtain ⟨t, hrun, hunits, hbeside, -, hinputs⟩ := runs_units ⟨hen, honly, hadm⟩ hin hn
  exact ⟨t, hrun, hunits.wcur, hunits.acur, hunits.abase, hunits.wbase, hunits.mode, hbeside.page, hbeside.others,
    hbeside.mask, hbeside.req, hinputs, hunits.done⟩

/-- Settles O51: up to the count by `runs_units`, then one tick that finds the count zero. -/
theorem terminalCountAfterProgrammedLength : Obligations.TerminalCountAfterProgrammedLength := by
  intro s c q rest _ hen honly hadm hin
  have hr : Ready s q c := ⟨hen, honly, hadm⟩
  have hsplit (k : Nat) (hk : k ≤ (s.chan c).wcur.toNat) : s.inputs = ticks s.cfg.portMap (List.replicate k q) ++
      (ticks s.cfg.portMap (List.replicate ((s.chan c).wcur.toNat - k + 1) q) ++ rest) := by
    rw [hin, ← ticks_append, List.replicate_append_replicate]
    congr 3
    omega
  constructor
  · intro k hk
    obtain ⟨u, hrun, hunits, hbeside, -⟩ := runs_units hr (hsplit k hk) hk
    exact ⟨u, hrun, hunits.done, hbeside.mask⟩
  · obtain ⟨u, hrun, hunits, hbeside, hready, hinputs⟩ := runs_units hr (hsplit _ le_rfl) le_rfl
    rw [Nat.sub_self] at hinputs
    have hlast : Runs 1 u (u.afterTick q c rest) :=
      (runs_succ 0 u _).mpr ⟨_, hready.step_tick hinputs, (runs_zero _ _).mpr rfl⟩
    have hcomp := hunits.then_terminal q rest
    have hz := hunits.wcur_eq_zero
    have hauto : autoBit (u.chan c) = autoBit (s.chan c) := by
      unfold autoBit
      rw [hunits.mode]
    refine ⟨_, runs_add hrun hlast, State.afterTick_inputs .., hcomp.done, ?_, fun ha => ?_, fun ha => ?_⟩
    · rw [Bool.eq_false_iff, ne_eq, State.reqBit_afterTick]
      exact fun h => h.2 ⟨rfl, hz⟩
    · exact ⟨(u.maskBit_afterTick q c rest c).mpr (.inr ⟨rfl, hz, hauto.trans ha⟩),
        (u.tcFlag_afterTick q c rest c).mpr (.inr ⟨rfl, hz, .inl (hauto.trans ha)⟩), hcomp.plain ha⟩
    · refine ⟨?_, hcomp.auto ha⟩
      rw [Bool.eq_false_iff, ne_eq, State.maskBit_afterTick, hauto, ha, hbeside.mask, honly.1.2]
      simp

/-! #### The units of a block -/

/-- After the first unit of a block of `n + 1`, at most the count plus one: units are left only if it was no terminal count,
`n` are at most the count plus one, and their addresses are the next ones of the start (R47, R120). -/
theorem State.block_afterTick {s : State} {c : Chan} {n : Nat} (hn : n + 1 ≤ (s.chan c).wcur.toNat + 1) (q : Nibble)
    (rest : List Input) :
    (n ≠ 0 → (s.chan c).wcur ≠ 0x0000#16) ∧ n ≤ ((s.afterTick q c rest).chan c).wcur.toNat + 1 ∧
      ∀ i, i < n → (s.afterTick q c rest).phys c (BitVec.ofNat 16 i) = s.phys c (BitVec.ofNat 16 (i + 1)) := by
  have hlt := (s.chan c).wcur.isLt
  by_cases h0 : n = 0
  · subst h0
    exact ⟨fun h => absurd rfl h, Nat.zero_le _, nofun⟩
  · have hz : (s.chan c).wcur ≠ 0x0000#16 := wcur_ne_zero (n := n - 1) (by omega)
    refine ⟨fun _ => hz, ?_, fun i hi => phys_afterTick hz (by omega)⟩
    rw [toNat_wcur_afterTick hz]
    omega

/-- As many ticks as bytes supplied store them one after the other, `c` being admitted and alone eligible while bytes are
left to come (R47, R133). -/
theorem runs_write {c : Chan} {q : Nibble} {pm : PortMap} {more : List Byte} {rest : List Input} {bytes : List Byte}
    {s : State} (hm : s.mem.wf = true) (hr : bytes.length ≠ 0 → Ready s q c) (hw : (s.chan c).mode.extractLsb' 2 2 = 0b01#2)
    (hsupply : s.supply[c] = bytes ++ more) (hlen : bytes.length ≤ (s.chan c).wcur.toNat + 1)
    (hin : s.inputs = ticks pm (List.replicate bytes.length q) ++ rest) :
    ∃ t, Runs bytes.length s t ∧ t.supply[c] = more ∧
      (∀ i, ∀ h : i < bytes.length, t.byteAt (s.phys c (BitVec.ofNat 16 i)) = bytes[i]) ∧
      (∀ a, (∀ i, i < bytes.length → a ≠ s.phys c (BitVec.ofNat 16 i)) → t.byteAt a = s.byteAt a) := by
  induction bytes generalizing s with
  | nil => exact ⟨s, (runs_zero s s).mpr rfl, hsupply, nofun, fun _ _ => rfl⟩
  | cons b bs ih =>
    have hlt := (s.chan c).wcur.isLt
    rw [List.length_cons] at hlen
    have hready := hr (Nat.succ_ne_zero _)
    have hstep := hready.step_tick hin
    generalize hu : ticks pm (List.replicate bs.length q) ++ rest = inputs at hstep
    obtain ⟨hz, hcount, hphys⟩ := State.block_afterTick hlen q inputs
    have hsupply' : (s.afterTick q c inputs).supply[c] = bs ++ more := by
      rw [State.afterTick_supply, if_pos ((transferType_eq_write _).mpr hw), hsupply]
      simp
    obtain ⟨t, hrun, hmore, hbytes, hframe⟩ := ih (State.wf_afterTick hm ..) (fun hbs => hready.afterTick (hz hbs))
      (by rw [State.afterTick_chan_self, Channel.afterUnit_mode, hw]) hsupply' hcount
      ((State.afterTick_inputs ..).trans hu.symm)
    have hfirst : t.byteAt (s.phys c 0#16) = b := by
      rw [hframe, s.afterTick_byteAt_of_write q c inputs hm hw, State.cardNext_cons hsupply]
      intro i hi
      rw [hphys i hi]
      exact State.phys_ne (by omega) (by omega) (by omega)
    refine ⟨t, (runs_succ _ s t).mpr ⟨_, hstep, hrun⟩, hmore, fun i hi => ?_, fun a ha => ?_⟩
    · cases i with
      | zero => exact hfirst
      | succ i =>
        rw [List.length_cons] at hi
        rw [← hphys i (by omega), hbytes i (by omega), List.getElem_cons_succ]
    · have hrest : t.byteAt a = (s.afterTick q c inputs).byteAt a :=
        hframe a fun i hi => by rw [hphys i hi]; exact ha (i + 1) (Nat.succ_lt_succ hi)
      rw [hrest, s.afterTick_byteAt_of_ne q c inputs (.inr (ha 0 (Nat.succ_pos _)))]

/-- Settles O52 (`runs_write`). -/
theorem writeBlockLandsInPage : Obligations.WriteBlockLandsInPage := by
  intro bytes s c q more rest hm _ hen honly hadm hw hsupply hlen hin
  exact runs_write hm (fun _ => ⟨hen, honly, hadm⟩) hw hsupply hlen hin

/-- A read transfer gives the card the byte at `Phys(C, 0)` (R133). -/
theorem putBytes_afterTick_read {s : State} {q : Nibble} {c : Chan} {rest : List Input}
    (hr : (s.chan c).mode.extractLsb' 2 2 = 0b10#2) :
    putBytes c (s.afterTick q c rest).trace = putBytes c s.trace ++ [s.byteAt (s.phys c 0#16)] := by
  simp [State.afterTick_trace, State.moveSignals_read hr, putBytes]

/-- As many ticks as units give the card the bytes one after the other, `c` being admitted and alone eligible while units
are left to come (R47, R133). -/
theorem runs_read {c : Chan} {q : Nibble} {pm : PortMap} {rest : List Input} {n : Nat} {s : State}
    (hr : n ≠ 0 → Ready s q c) (hread : (s.chan c).mode.extractLsb' 2 2 = 0b10#2) (hn : n ≤ (s.chan c).wcur.toNat + 1)
    (hin : s.inputs = ticks pm (List.replicate n q) ++ rest) :
    ∃ t, Runs n s t ∧ (∀ a, t.byteAt a = s.byteAt a) ∧
      putBytes c t.trace = putBytes c s.trace ++
        (List.range n).map fun i => s.byteAt (s.phys c (BitVec.ofNat 16 i)) := by
  induction n generalizing s with
  | zero => exact ⟨s, (runs_zero s s).mpr rfl, fun _ => rfl, (List.append_nil _).symm⟩
  | succ n ih =>
    have hready := hr (Nat.succ_ne_zero n)
    have hstep := hready.step_tick hin
    generalize hu : ticks pm (List.replicate n q) ++ rest = inputs at hstep
    obtain ⟨hz, hcount, hphys⟩ := State.block_afterTick hn q inputs
    have hbyte (a : PhysAddr) : (s.afterTick q c inputs).byteAt a = s.byteAt a :=
      s.afterTick_byteAt_of_ne q c inputs (.inl (by simp [hread]))
    obtain ⟨t, hrun, hmem, hputs⟩ := ih (fun h => hready.afterTick (hz h))
      (by rw [State.afterTick_chan_self, Channel.afterUnit_mode, hread]) hcount ((State.afterTick_inputs ..).trans hu.symm)
    refine ⟨t, (runs_succ n s t).mpr ⟨_, hstep, hrun⟩, fun a => (hmem a).trans (hbyte a), ?_⟩
    have hrest : ((List.range n).map fun i => (s.afterTick q c inputs).byteAt ((s.afterTick q c inputs).phys c (BitVec.ofNat 16 i))) =
        (List.range n).map fun i => s.byteAt (s.phys c (BitVec.ofNat 16 (i + 1))) :=
      List.map_congr_left fun i hi => by rw [hbyte, hphys i (List.mem_range.mp hi)]
    rw [hputs, hrest, putBytes_afterTick_read hread, List.range_succ_eq_map, List.map_cons, List.map_map, List.append_assoc]
    rfl

/-- Settles O53 (`runs_read`). -/
theorem readBlockGivesCardMemory : Obligations.ReadBlockGivesCardMemory := by
  intro n s c q rest _ hen honly hadm hread hn hin
  exact runs_read (fun _ => ⟨hen, honly, hadm⟩) hread hn hin

/-! #### Any run -/

/-- `n` steps of a channel in any run, `n` at most its count, do `n` units (R143). -/
theorem unitsDone_of_transferRun {c : Chan} {n : Nat} {s t : State} (h : TransferRun c n s t)
    (hn : n ≤ (s.chan c).wcur.toNat) : UnitsDone c n s t := by
  induction h with
  | nil s => exact .zero c s
  | @service n s u t q hnext hserv hstep _ ih =>
    have hz := wcur_ne_zero hn
    obtain ⟨rest, rfl⟩ := step_service hnext hserv hstep
    refine (ih ?_).after_tick hz (Nat.lt_trans hn (s.chan c).wcur.isLt)
    rw [State.toNat_wcur_afterTick hz]
    omega
  | other hrep hserv hstep _ ih =>
    have hsame := step_sameTransfer hrep hserv hstep
    exact (ih (hsame.wcur ▸ hn)).after_same hsame

/-- A run with no step of a channel leaves its transfer alone. -/
theorem sameTransfer_of_transferRun {c : Chan} {s t : State} (h : TransferRun c 0 s t) : SameTransfer c s t := by
  generalize hk : 0 = k at h
  induction h with
  | nil s => exact ⟨rfl, rfl, rfl, rfl, rfl, rfl⟩
  | service => cases hk
  | other hrep hserv hstep _ ih =>
    have hfirst := step_sameTransfer hrep hserv hstep
    have hrest := ih hk
    exact ⟨hrest.wcur.trans hfirst.wcur, hrest.acur.trans hfirst.acur, hrest.abase.trans hfirst.abase,
      hrest.wbase.trans hfirst.wbase, hrest.mode.trans hfirst.mode, hrest.done.trans hfirst.done⟩

/-- A run with `n + 1` steps of a channel is one with `n`, its last step, and a run with none. -/
theorem transferRun_last {c : Chan} {n : Nat} {s t : State} (h : TransferRun c (n + 1) s t) :
    ∃ u q rest, TransferRun c n s u ∧ TransferRun c 0 (u.afterTick q c rest) t := by
  generalize hk : n + 1 = k at h
  induction h generalizing n with
  | nil => cases hk
  | @service m s v t q hnext hserv hstep htail ih =>
    cases hk
    cases m with
    | zero =>
      obtain ⟨rest, rfl⟩ := step_service hnext hserv hstep
      exact ⟨s, q, rest, .nil s, htail⟩
    | succ m =>
      obtain ⟨u, q', rest, hpre, hpost⟩ := ih rfl
      exact ⟨u, q', rest, .service hnext hserv hstep hpre, hpost⟩
  | other hrep hserv hstep _ ih =>
    obtain ⟨u, q', rest, hpre, hpost⟩ := ih hk
    exact ⟨u, q', rest, .other hrep hserv hstep hpre, hpost⟩

/-- Settles O59: the units by `unitsDone_of_transferRun`, and the next one is a tick from where they leave the channel. -/
theorem progressInAnyRun : Obligations.ProgressInAnyRun := by
  intro c n s t hrun hn
  obtain ⟨hwcur, hacur, habase, hwbase, hmode, hdone⟩ := unitsDone_of_transferRun hrun hn
  refine ⟨hwcur, hacur, habase, hwbase, hmode, hdone, fun q hserv => ⟨_, t.phys c 0#16, exec_tick_of_services hserv, ?_,
    fun hread => ?_, fun hwrite => ⟨t.cardNext c, fun w more hw => State.cardNext_cons hw, ?_⟩⟩⟩
  · rw [State.toNat_phys_zero, hacur]
  · rw [← hmode] at hread
    rw [State.afterTick_trace, State.moveSignals_read hread, State.afterTick_chan_self]
  · rw [← hmode] at hwrite
    rw [State.afterTick_trace, State.moveSignals_write hwrite, State.afterTick_chan_self]

/-- Settles O60: the units of the count, the terminal count, and what comes after it. -/
theorem terminalCountInAnyRun : Obligations.TerminalCountInAnyRun := by
  intro c s t hrun
  obtain ⟨u, q, rest, hpre, hpost⟩ := transferRun_last hrun
  have hcomp := ((unitsDone_of_transferRun hpre le_rfl).then_terminal q rest).then_same (sameTransfer_of_transferRun hpost)
  exact ⟨hcomp.done, hcomp.abase, hcomp.wbase, hcomp.plain, hcomp.auto⟩

end Sys2Proof.Machine
end

section
/-! Runs of ticks of which nothing is assumed but one channel's mask bit or its requests (44_service_scheduler.md R152,
R159, R160). -/

namespace Sys2Proof.Machine

open Sys2Proof

/-- A tick at the head of the queue finds nothing to service, or services one channel. -/
theorem step_tick_cases {s u : State} {pm : PortMap} {q : Nibble} {qs : List Nibble} {rest : List Input}
    (hin : s.inputs = ticks pm (q :: qs) ++ rest) (h : step s = .next u) :
    ((enabled s.dmac.cmd = false ∨ s.eligibleAt q = 0#4) ∧ u = { s with inputs := ticks pm qs ++ rest }) ∨
    ∃ d, Services s q d ∧ u = s.afterTick q d (ticks pm qs ++ rest) :=
  exec_tick_cases (s := { s with inputs := ticks pm qs ++ rest }) ((step_tick hin).symm.trans h)

/-! #### A masked channel -/

/-- Channel `c` stands still from `s` to `t`: its registers, its mask bit, its software request, its card (R159). -/
structure StandsStill (c : Chan) (s t : State) : Prop where
  chan   : t.chan c = s.chan c
  mask   : t.dmac.mask.getLsbD c.val = s.dmac.mask.getLsbD c.val
  req    : t.dmac.req.getLsbD c.val = s.dmac.req.getLsbD c.val
  supply : t.supply[c] = s.supply[c]
  puts   : putBytes c t.trace = putBytes c s.trace
  done   : completions c t.trace = completions c s.trace

namespace StandsStill

theorem trans {c : Chan} {s t u : State} (h : StandsStill c s t) (h' : StandsStill c t u) : StandsStill c s u :=
  ⟨h'.chan.trans h.chan, h'.mask.trans h.mask, h'.req.trans h.req, h'.supply.trans h.supply, h'.puts.trans h.puts,
    h'.done.trans h.done⟩

/-- A unit of channel `d` gives no other card a byte (R133). -/
theorem putBytes_moveSignals_of_ne (s : State) {c d : Chan} (h : c ≠ d) : putBytes c (s.moveSignals d) = [] := by
  unfold State.moveSignals
  split <;> simp [putBytes, Ne.symm h]

/-- A tick that services another channel. -/
theorem afterTick {s : State} {c d : Chan} (h : c ≠ d) (q : Nibble) (rest : List Input) :
    StandsStill c s (s.afterTick q d rest) where
  chan   := State.afterTick_chan_of_ne _ _ _ _ h
  mask   := Bool.eq_iff_iff.mpr ((s.maskBit_afterTick q d rest c).trans (or_iff_left fun e => h e.1))
  req    := Bool.eq_iff_iff.mpr ((s.reqBit_afterTick q d rest c).trans (and_iff_left fun e => h e.1))
  supply := by
    have hne : d.val ≠ c.val := fun e => h (Fin.ext e.symm)
    rw [State.afterTick_supply]
    split
    · exact Vector.getElem_set_ne _ _ hne
    · rfl
  puts   := by simp [State.afterTick_trace, putBytes_moveSignals_of_ne s h]
  done   := by rw [State.completions_afterTick, if_neg fun e => h e.2.symm, Nat.add_zero]

/-- A tick leaves a masked channel still (R159). -/
theorem of_step_tick {s u : State} {c : Chan} {pm : PortMap} {q : Nibble} {qs : List Nibble} {rest : List Input}
    (hmask : s.dmac.mask.getLsbD c.val = true) (hin : s.inputs = ticks pm (q :: qs) ++ rest) (h : step s = .next u) :
    StandsStill c s u := by
  rcases step_tick_cases hin h with ⟨-, rfl⟩ | ⟨d, hs, rfl⟩
  · exact ⟨rfl, rfl, rfl, rfl, rfl, rfl⟩
  · exact afterTick (fun e => not_services_of_masked (e ▸ hmask) hs) q _

/-- So does a run of ticks. -/
theorem of_runs_ticks {c : Chan} {pm : PortMap} {qs : List Nibble} {rest : List Input} {s t : State}
    (hmask : s.dmac.mask.getLsbD c.val = true) (hin : s.inputs = ticks pm qs ++ rest) (hrun : Runs qs.length s t) :
    StandsStill c s t := by
  induction qs generalizing s with
  | nil =>
    obtain rfl := (runs_zero s t).mp hrun
    exact ⟨rfl, rfl, rfl, rfl, rfl, rfl⟩
  | cons q qs ih =>
    obtain ⟨u, hu, ht⟩ := (runs_succ _ s t).mp hrun
    have hfirst := of_step_tick hmask hin hu
    exact hfirst.trans (ih (hfirst.mask.trans hmask) (step_inputs hu hin) ht)

end StandsStill

/-- Settles O46, by induction on the ticks (`StandsStill.of_runs_ticks`). -/
theorem maskedChannelStandsStill : Obligations.MaskedChannelStandsStill := by
  intro qs s t c rest _ hmask hin hrun
  obtain ⟨hchan, hmask', hreq, hsupply, hputs, hdone⟩ := StandsStill.of_runs_ticks hmask hin hrun
  exact ⟨hchan, hmask'.trans hmask, hreq, hsupply, hputs, hdone⟩

/-! #### A requesting channel under the rotating policy -/

/-- How many channels come before `c` in the rotating order after `last` (R156). -/
def rank (last c : Chan) : Nat := (c.val + 7 - last.val) % 4

/-- A channel serviced before `c` takes it forward in the rotating order. -/
theorem rank_lt_of_serviced : ∀ last c d : Chan, d ≠ c → rank last d ≤ rank last c → rank d c < rank last c := by
  decide

/-- An unmasked channel is serviced within as many ticks as its place in the rotating order, if it requests at each of
them (R160): each tick that services another one brings it forward (`rank_lt_of_serviced`). -/
theorem serviced_within_rank {c : Chan} {pm : PortMap} {rest : List Input} {qs : List Nibble} {s t : State}
    (hen : s.dmac.cmd.getLsbD 2 = true) (hrot : s.dmac.cmd.getLsbD 4 = true) (hmask : s.dmac.mask.getLsbD c.val = false)
    (hreq : ∀ q ∈ qs, lineOf q c = true ∨ s.dmac.req.getLsbD c.val = true) (hrank : rank s.dmac.last c < qs.length)
    (hin : s.inputs = ticks pm qs ++ rest) (hrun : Runs qs.length s t) :
    ∃ k, ∃ hk : k < qs.length, ∃ u, Runs k s u ∧ Services u qs[k] c := by
  induction qs generalizing s with
  | nil => exact absurd hrank (Nat.not_lt_zero _)
  | cons q qs ih =>
    obtain ⟨v, hv, ht⟩ := (runs_succ _ s t).mp hrun
    have helig : EligibleAt s q c := ⟨hreq q List.mem_cons_self, hmask⟩
    rcases step_tick_cases hin hv with ⟨hdis | hnone, -⟩ | ⟨d, hs, rfl⟩
    · exact absurd (hdis.symm.trans hen) (by decide)
    · exact absurd helig ((eligibleAt_eq_zero_iff s q).mp hnone c)
    · by_cases hd : d = c
      · subst hd
        exact ⟨0, Nat.succ_pos _, s, (runs_zero s s).mpr rfl, hs⟩
      · have hstill : StandsStill c s (s.afterTick q d (ticks pm qs ++ rest)) := .afterTick (Ne.symm hd) q _
        have hle : rank s.dmac.last d ≤ rank s.dmac.last c := ((rotatingPriority s q d hrot).mp hs.2.1).2 c helig
        have hlt := rank_lt_of_serviced _ c d hd hle
        rw [List.length_cons] at hrank
        obtain ⟨k, hk, u, hku, hserv⟩ := ih (s := s.afterTick q d (ticks pm qs ++ rest)) ((State.afterTick_cmd ..).symm ▸ hen)
          ((State.afterTick_cmd ..).symm ▸ hrot) (hstill.mask.trans hmask)
          (fun q' hq' => hstill.req ▸ hreq q' (List.mem_cons_of_mem _ hq'))
          (by rw [State.afterTick_last]; omega) (State.afterTick_inputs ..) ht
        exact ⟨k + 1, Nat.succ_lt_succ hk, u, (runs_succ k s u).mpr ⟨_, hv, hku⟩, hserv⟩

/-- Settles O54: there are four places in the rotating order. -/
theorem rotationIsFair : Obligations.RotationIsFair := by
  intro s t c q rest _ hen hrot hmask hreq hin hrun
  have hlines : ∀ x ∈ [q 0, q 1, q 2, q 3], lineOf x c = true ∨ s.dmac.req.getLsbD c.val = true := by
    simpa using ⟨hreq 0 (by decide), hreq 1 (by decide), hreq 2 (by decide), hreq 3 (by decide)⟩
  obtain ⟨k, hk, u, hku, hserv⟩ :=
    serviced_within_rank hen hrot hmask hlines (Nat.mod_lt _ (by decide)) hin hrun
  have hget : ∀ k, ∀ h : k < 4, [q 0, q 1, q 2, q 3][k] = q k
    | 0, _ | 1, _ | 2, _ | 3, _ => rfl
  exact ⟨k, u, hk, hku, hget k hk ▸ hserv⟩

end Sys2Proof.Machine
end

section
/-! What a tick does not depend on: the transfer mode and the unused bits of a channel's mode (30_encoding.md R66,
43_transfer_engine.md R144), and the bits of `CMD` that name nothing (R67, decision D6). -/

namespace Sys2Proof.Machine

open Sys2Proof

/-- Two states with the same fields are the same. -/
theorem State.ext_fields {s t : State} (hchan : ∀ c, s.chan c = t.chan c) (hcmd : s.dmac.cmd = t.dmac.cmd)
    (hreq : s.dmac.req = t.dmac.req) (hmask : s.dmac.mask = t.dmac.mask) (hstatus : s.dmac.status = t.dmac.status)
    (hbff : s.dmac.bff = t.dmac.bff) (hlast : s.dmac.last = t.dmac.last) (hmem : s.mem = t.mem) (hcfg : s.cfg = t.cfg)
    (hinputs : s.inputs = t.inputs) (hsupply : s.supply = t.supply) (hdraws : s.draws = t.draws)
    (htrace : s.trace = t.trace) : s = t := by
  have hchans := chans_ext hchan
  obtain ⟨⟨_, _, _, _, _, _, _⟩, _, _, _, _, _, _⟩ := s
  obtain ⟨⟨_, _, _, _, _, _, _⟩, _, _, _, _, _, _⟩ := t
  simp only at *
  subst hchans hcmd hreq hmask hstatus hbff hlast hmem hcfg hinputs hsupply hdraws htrace
  rfl

/-- Two states that differ at most in `CMD` and the channel file, and whose channels `c` have what a unit of `c` looks at
alike. -/
structure UnitAlike (c : Chan) (s s' : State) : Prop where
  req    : s'.dmac.req = s.dmac.req
  mask   : s'.dmac.mask = s.dmac.mask
  status : s'.dmac.status = s.dmac.status
  bff    : s'.dmac.bff = s.dmac.bff
  mem    : s'.mem = s.mem
  cfg    : s'.cfg = s.cfg
  supply : s'.supply = s.supply
  draws  : s'.draws = s.draws
  trace  : s'.trace = s.trace
  wcur   : (s'.chan c).wcur = (s.chan c).wcur
  bptr   : (s'.chan c).bptr = (s.chan c).bptr
  type   : transferType (s'.chan c).mode = transferType (s.chan c).mode
  auto   : autoinitializes (s'.chan c).mode = autoinitializes (s.chan c).mode
  phys   : s'.phys c 0#16 = s.phys c 0#16
  unit   : (s'.chan c).afterUnit.bptr = (s.chan c).afterUnit.bptr

/-- Such states are left by a tick alike, but for `CMD` and the channel file. -/
theorem UnitAlike.afterTick_eq {c : Chan} {s s' : State} (h : UnitAlike c s s') (q : Nibble) (rest : List Input) :
    s'.afterTick q c rest = { s.afterTick q c rest with
      dmac := { (s.afterTick q c rest).dmac with chans := (s'.afterTick q c rest).dmac.chans, cmd := s'.dmac.cmd } } := by
  have helig : s'.eligibleAt q = s.eligibleAt q := by simp only [State.eligibleAt, h.req, h.mask]
  have hnext : s'.cardNext c = s.cardNext c := by simp only [State.cardNext, h.supply, h.draws]
  have hbyte (a : PhysAddr) : s'.byteAt a = s.byteAt a := by simp only [State.byteAt, h.mem]
  have hmoves : s'.moveSignals c = s.moveSignals c := by
    simp only [State.moveSignals, h.type, h.phys, hbyte, h.bptr, hnext]
  refine State.ext_fields (fun d => rfl) (State.afterTick_cmd ..) ?_ ?_ ?_ ?_ rfl ?_ ?_ ?_ ?_ ?_ ?_
  · simp only [State.afterTick_req, h.wcur, h.req]
  · simp only [State.afterTick_mask, h.wcur, h.auto, h.mask]
  · simp only [State.afterTick_status, h.wcur, h.auto, h.cfg, h.status, helig]
  · simp only [State.afterTick_bff, h.bff]
  · simp only [State.afterTick_mem, h.type, h.mem, h.phys, hnext]
  · simp only [State.afterTick_cfg, h.cfg]
  · simp only [State.afterTick_inputs]
  · simp only [State.afterTick_supply, h.type, h.supply]
  · simp only [State.afterTick_draws, State.takeCardByte_draws, h.type, h.supply, h.draws]
  · simp only [State.afterTick_trace, h.trace, hmoves, h.wcur, h.unit]

/-- A change `f` of the state goes through a tick when it leaves what the tick selects by, and goes through the tick that
services a channel. -/
theorem exec_tick_transport {s t : State} {q : Nibble} (f : State → State) (h : exec (.tick q) s = .next t)
    (hen : enabled (f s).dmac.cmd = enabled s.dmac.cmd) (helig : (f s).eligibleAt q = s.eligibleAt q)
    (hserv : ∀ c, Services s q c →
      Services (f s) q c ∧ (f s).afterTick q c (f s).inputs = f (s.afterTick q c s.inputs)) :
    exec (.tick q) (f s) = .next (f t) := by
  rcases exec_tick_cases h with ⟨hnone, rfl⟩ | ⟨c, hc, rfl⟩
  · exact execTick_idle (hen ▸ helig ▸ hnone)
  · obtain ⟨hc', heq⟩ := hserv c hc
    rw [exec_tick_of_services hc', heq]

/-! #### The unnamed bits of `CMD` -/

/-- A serviced tick carries `CMD` through and looks at none of it. -/
theorem State.afterTick_setCmd (s : State) (b : Byte) (q : Nibble) (c : Chan) (rest : List Input) :
    (s.setCmd b).afterTick q c rest = (s.afterTick q c rest).setCmd b := by
  have halike : UnitAlike c s (s.setCmd b) :=
    ⟨rfl, rfl, rfl, rfl, rfl, rfl, rfl, rfl, rfl, rfl, rfl, rfl, rfl, rfl, rfl⟩
  have hchans : ((s.setCmd b).afterTick q c rest).dmac.chans = (s.afterTick q c rest).dmac.chans := by
    refine chans_ext fun d => ?_
    by_cases hd : d = c
    · subst hd
      simp only [afterTick_chan_self, setCmd_chan]
    · simp only [afterTick_chan_of_ne _ _ _ _ hd, setCmd_chan]
  rw [halike.afterTick_eq, hchans]
  rfl

/-- Settles O48: the tick selects by the enable and policy bits alone, and a unit looks at no bit of `CMD`. -/
theorem unnamedCommandBitsIgnored : Obligations.UnnamedCommandBitsIgnored := by
  intro s t q b hen hrot h
  have hsel : (s.setCmd b).selectAt q = s.selectAt q := by
    have hrot' : rotating b = rotating s.dmac.cmd := hrot
    unfold State.selectAt
    rw [State.setCmd_cmd, hrot']
    rfl
  refine exec_tick_transport (fun u => u.setCmd b) h hen rfl fun c hc => ?_
  obtain ⟨hen', hsel', hadm⟩ := hc
  exact ⟨⟨hen.trans hen', hsel.trans hsel', hadm⟩, s.afterTick_setCmd b q c s.inputs⟩

/-! #### The transfer mode and the unused mode bits -/

/-- Two modes that agree on bits 5:2 have the same type, direction and autoinitialize bit (R66). -/
structure ModeAlike (m m' : Byte) : Prop where
  type : transferType m = transferType m'
  dec  : decrements m = decrements m'
  auto : autoinitializes m = autoinitializes m'

theorem modeAlike_of_bits {m m' : Byte} (h : m.extractLsb' 2 4 = m'.extractLsb' 2 4) : ModeAlike m m' := by
  have hbit (i : Nat) (hi : i < 4) : m.getLsbD (2 + i) = m'.getLsbD (2 + i) := by
    have := congrArg (fun x : BitVec 4 => x.getLsbD i) h
    simpa [BitVec.getLsbD_extractLsb', hi] using this
  refine ⟨?_, hbit 3 (by decide), hbit 2 (by decide)⟩
  unfold transferType
  rw [hbit 0 (by decide), hbit 1 (by decide)]

/-- A unit carries the mode through and looks at its type, direction and autoinitialize bit alone (R130). -/
theorem Channel.afterUnit_withMode {ch : Channel} {m : Byte} (h : ModeAlike m ch.mode) :
    ({ ch with mode := m } : Channel).afterUnit = { ch.afterUnit with mode := m } := by
  have hcounted : ({ ch with mode := m } : Channel).counted = { ch.counted with mode := m } := by
    simp only [Channel.counted, Channel.movedBptr, Channel.addressAhead, h.type, h.dec]
  unfold Channel.afterUnit
  simp only [h.auto, hcounted]
  split <;> rfl

section

variable {s : State} {c : Chan} {m : Byte} (h : ModeAlike m (s.chan c).mode)

include h

/-- With such a mode put in, every channel looks to a unit as before. -/
theorem unitAlike_withMode (d : Chan) : UnitAlike d s (s.setChan c { s.chan c with mode := m }) := by
  by_cases hd : d = c
  · subst hd
    refine ⟨rfl, rfl, rfl, rfl, rfl, rfl, rfl, rfl, rfl, ?_, ?_, ?_, ?_, ?_, ?_⟩
    · simp
    · simp
    · simp [h.type]
    · simp [h.auto]
    · simp [State.phys, Channel.phys, Channel.addressAhead]
    · simp [Channel.afterUnit_withMode h]
  · have hchan := State.chan_setChan_of_ne s c { s.chan c with mode := m } hd
    refine ⟨rfl, rfl, rfl, rfl, rfl, rfl, rfl, rfl, rfl, ?_, ?_, ?_, ?_, ?_, ?_⟩
    all_goals simp only [State.phys, hchan]

/-- A serviced tick carries the mode through. -/
theorem State.afterTick_withMode (q : Nibble) (d : Chan) (rest : List Input) :
    (s.setChan c { s.chan c with mode := m }).afterTick q d rest =
      (s.afterTick q d rest).setChan c { (s.afterTick q d rest).chan c with mode := m } := by
  have hchans : ((s.setChan c { s.chan c with mode := m }).afterTick q d rest).dmac.chans =
      ((s.afterTick q d rest).setChan c { (s.afterTick q d rest).chan c with mode := m }).dmac.chans := by
    refine chans_ext fun e => ?_
    by_cases hed : e = d <;> by_cases hec : e = c
    · subst hed hec
      simp [Channel.afterUnit_withMode h]
    · subst hed
      simp [chan_setChan, hec]
    · subst hec
      simp [afterTick_chan_of_ne _ _ _ _ hed]
    · simp [chan_setChan, hec, afterTick_chan_of_ne _ _ _ _ hed]
  have hcmd : (s.setChan c { s.chan c with mode := m }).dmac.cmd = (s.afterTick q d rest).dmac.cmd :=
    (afterTick_cmd s q d rest).symm
  rw [(unitAlike_withMode h d).afterTick_eq, hchans, hcmd]
  rfl

end

/-- Settles O47: the selection looks at no mode, admission and the unit at bits that the change keeps. -/
theorem transferModeIgnored : Obligations.TransferModeIgnored := by
  intro s t q c m hbits hmode h
  have halike := modeAlike_of_bits hbits
  refine exec_tick_transport (fun u => u.setChan c { u.chan c with mode := m }) h rfl rfl fun d hd => ?_
  refine ⟨?_, State.afterTick_withMode halike q d s.inputs⟩
  obtain ⟨hen, hsel, hcard, htype, hcas⟩ := hd
  refine ⟨hen, hsel, hcard, ?_, ?_⟩
  · have hreserved := (transferType_eq_reserved _).not.mpr htype
    rw [← (unitAlike_withMode halike d).type] at hreserved
    exact (transferType_eq_reserved _).not.mp hreserved
  · by_cases hdc : d = c
    · subst hdc
      rwa [State.chan_setChan_self]
    · rwa [State.chan_setChan_of_ne _ _ _ hdc]

end Sys2Proof.Machine
end
